-- ==== Sys2Proof/Word.lean ====
section
/-! DEFINITION. The word types of the Oort core (spec/00_scope.md R5, R7, R8): bytes, 64-bit words,
the 16-bit literal of a long instruction and the two 4-bit fields of an opcode byte. -/

namespace Sys2Proof

/-- A byte of memory, bits 7 to 0 (R7). -/
abbrev Byte := BitVec 8

/-- A 64-bit register value, data word or address (R5 `XLEN`, R8). Addition on it is modulo 2^64. -/
abbrev Word := BitVec 64

/-- The 16-bit literal of a long instruction (R74). -/
abbrev Literal := BitVec 16

/-- A 4-bit field of the opcode byte: `op` or `arg` (R71). -/
abbrev Nibble := BitVec 4

end Sys2Proof
end

