-- ==== Sys2Proof/Config.lean ====
section
/-! DEFINITION. What the environment supplies to the core and what the spec fixes by name
(spec/00_scope.md R5): the memory capacity, the instruction lengths, the kinds of trap and the
answers a trap hook can give. -/

namespace Sys2Proof.Config

/-- The host's default for `memsize`, in bytes (R5). -/
def defaultMemsize : Nat := 65536

/-- The largest `memsize` the spec admits: 2^64 − 8 (R5; the spec's decision D9). -/
def maxMemsize : Nat := 2 ^ 64 - 8

/-- The width of a word access and of an aligned block, in bytes (R5 `WORD`, R43). -/
def wordBytes : Nat := 8

/-- The length of a format S instruction (R72, R73). -/
def shortLength : Nat := 1

/-- The length of a format L instruction (R72, R73). -/
def longLength : Nat := 3

/-- What a byte of memory reads as when nothing was loaded or stored there: memory is
"zero-filled" at startup (R28, R210). -/
def unlistedByte : Byte := 0

/-- The four kinds of trap instruction (R185). -/
inductive TrapKind where
  | null
  | trace
  | syscall
  | extension
  deriving DecidableEq, Repr

/-- The two answers a trap hook can give (R5 `TrapHook`, R186). -/
inductive HookAnswer where
  | continue
  | halt
  deriving DecidableEq, Repr

/-- The environment's answer to one hook invocation, for whichever kind the core presents: the hook
is "a small interface with one method per trap category" (R186). -/
structure HookReply where
  null      : HookAnswer
  trace     : HookAnswer
  syscall   : HookAnswer
  extension : HookAnswer
  deriving DecidableEq, Repr

/-- The reference configuration of the hook: the constant `Halt` (R5, R186). -/
def referenceReply : HookReply :=
  { null := .halt, trace := .halt, syscall := .halt, extension := .halt }

end Sys2Proof.Config
end

