-- ==== Sys2Proof/Syntax.lean ====
section
/-! DEFINITION. The 31 instructions of the Oort core (spec/30_encoding.md R86), one constructor for
each row of spec/opcode_table.json, with the operands of R79 and R90. -/

namespace Sys2Proof

/-- A general register number, 0 to 15 (R20). -/
abbrev Reg := Fin 16

/-- A condition selector: a mask over the four condition categories, bit `k` for category `k`
(R79, R81). -/
abbrev Selector := Nibble

/-- A pattern selector for the pattern-extended immediate (R77, R79). -/
abbrev Pattern := Nibble

/-- A signed displacement in bytes; an encodable one lies in −32768 … 32767 (R90, R155). -/
abbrev Disp := Int

/-- One instruction. The docstring of a constructor names the rule that gives its meaning. -/
inductive Instr where
  /-- `trap.null`, byte 0x00 (R120). -/
  | trapNull
  /-- `trap.trace`, byte 0x01 (R121). -/
  | trapTrace
  /-- `trap.sys`, byte 0x02 (R122). -/
  | trapSys
  /-- `trap.ext`, byte 0x03 (R123). -/
  | trapExt
  /-- `mfsr`, byte 0x04 (R124). -/
  | mfsr
  /-- `mtsr`, byte 0x05 (R125). -/
  | mtsr
  /-- `shl`, byte 0x06 (R126). -/
  | shl
  /-- `shr`, byte 0x07 (R127). -/
  | shr
  /-- `jr`, byte 0x08 (R128). -/
  | jr
  /-- `callr`, byte 0x09 (R129). -/
  | callr
  /-- `ret`, byte 0x0A (R130). -/
  | ret
  /-- `nop`, byte 0x0B (R131). -/
  | nop
  /-- `mflr`, byte 0x0C (R132). -/
  | mflr
  /-- `mtlr`, byte 0x0D (R133). -/
  | mtlr
  /-- `lpc`, byte 0x0E (R134). -/
  | lpc
  /-- `halt`, byte 0x0F (R135). -/
  | halt
  /-- `test c`, byte 0x1c (R140). -/
  | test (c : Selector)
  /-- `mf rN`, byte 0x2r (R145). -/
  | mf (r : Reg)
  /-- `mt rN`, byte 0x3r (R146). -/
  | mt (r : Reg)
  /-- `and rN`, byte 0x4r (R147). -/
  | and (r : Reg)
  /-- `or rN`, byte 0x5r (R148). -/
  | or (r : Reg)
  /-- `xor rN`, byte 0x6r (R149). -/
  | xor (r : Reg)
  /-- `add rN`, byte 0x7r (R150). -/
  | add (r : Reg)
  /-- `b c, d`, bytes 0x8c and the literal (R155). -/
  | b (c : Selector) (d : Disp)
  /-- `call c, d`, bytes 0x9c and the literal (R156). -/
  | call (c : Selector) (d : Disp)
  /-- `ld rN, d`, bytes 0xAr and the literal (R160). -/
  | ld (r : Reg) (d : Disp)
  /-- `st rN, d`, bytes 0xBr and the literal (R161). -/
  | st (r : Reg) (d : Disp)
  /-- `andi a, i`, bytes 0xCa and the literal (R165). -/
  | andi (a : Pattern) (i : Literal)
  /-- `ori a, i`, bytes 0xDa and the literal (R166). -/
  | ori (a : Pattern) (i : Literal)
  /-- `xori a, i`, bytes 0xEa and the literal (R167). -/
  | xori (a : Pattern) (i : Literal)
  /-- `addi a, i`, bytes 0xFa and the literal (R168). -/
  | addi (a : Pattern) (i : Literal)
  deriving DecidableEq, Repr

/-- Whether an instruction has format L, and so a literal and length 3 (R72). -/
def Instr.isLong : Instr → Bool
  | .trapNull | .trapTrace | .trapSys | .trapExt => false
  | .mfsr | .mtsr | .shl | .shr => false
  | .jr | .callr | .ret | .nop => false
  | .mflr | .mtlr | .lpc | .halt => false
  | .test _ => false
  | .mf _ | .mt _ | .and _ | .or _ | .xor _ | .add _ => false
  | .b _ _ | .call _ _ | .ld _ _ | .st _ _ => true
  | .andi _ _ | .ori _ _ | .xori _ _ | .addi _ _ => true

/-- The length of an instruction in bytes, 1 or 3 (R73). -/
def Instr.length (i : Instr) : Nat :=
  if i.isLong then Config.longLength else Config.shortLength

end Sys2Proof
end

