-- ==== Sys2Proof/WellFormed.lean ====
section
/-! DEFINITION. Which instruction terms the encoding admits. Register numbers, selectors and
literals are bounded by their types; a displacement is a signed number and must fit the 16-bit
literal (spec/30_encoding.md R90: "a signed displacement −32768 to 32767"). -/

namespace Sys2Proof

/-- The displacement fits the 16-bit literal (R90, R155). -/
abbrev Disp.Encodable (d : Int) : Prop := -32768 ≤ d ∧ d ≤ 32767

/-- The instruction can be encoded: its displacement, if it has one, fits the literal. -/
def Instr.wellFormed : Instr → Bool
  | .trapNull | .trapTrace | .trapSys | .trapExt => true
  | .mfsr | .mtsr | .shl | .shr => true
  | .jr | .callr | .ret | .nop => true
  | .mflr | .mtlr | .lpc | .halt => true
  | .test _ => true
  | .mf _ | .mt _ | .and _ | .or _ | .xor _ | .add _ => true
  | .b _ d => decide (Disp.Encodable d)
  | .call _ d => decide (Disp.Encodable d)
  | .ld _ d => decide (Disp.Encodable d)
  | .st _ d => decide (Disp.Encodable d)
  | .andi _ _ | .ori _ _ | .xori _ _ | .addi _ _ => true

end Sys2Proof
end

