-- ==== Sys2Proof/Decode.lean ====
section
/-! DEFINITION. The instruction decoder and the encoder (spec/30_encoding.md R71 to R74, R86, R87).
The decoder is total on any list of bytes. No encoding is reserved (R85), so it rejects only a list
that ends too early, and names which part is missing. -/

namespace Sys2Proof

/-- Why a list of bytes holds no instruction: the list ends too early. -/
inductive DecodeError where
  /-- There is no byte at all, so no opcode byte. -/
  | noOpcode
  /-- The opcode byte has format L and its two literal bytes are not both there. -/
  | noLiteral
  deriving DecidableEq, Repr

/-- The opcode group, bits 7:4 of the opcode byte (R71). -/
def opField (b0 : Byte) : Nibble := b0.extractLsb' 4 4

/-- The argument nibble, bits 3:0 of the opcode byte (R71). -/
def argField (b0 : Byte) : Nibble := b0.extractLsb' 0 4

/-- Whether the opcode byte has format L: "`op & 0x8 != 0`" (R73). -/
def isLongOpcode (b0 : Byte) : Bool := (opField b0).getLsbD 3

/-- The literal, low byte first (R74): `imm = b1 + 256 · b2`. -/
def literalOfBytes (b1 b2 : Byte) : Literal := b2 ++ b1

/-- The register that an argument nibble names (R79). -/
def regOfArg (arg : Nibble) : Reg := ⟨arg.toNat, arg.isLt⟩

/-- The displacement that a literal stands for: its signed value (R76, R90). -/
def dispOfLiteral (imm : Literal) : Disp := imm.toInt

/-- The literal of a displacement: `imm = d mod 2^16` (R90, R155). -/
def literalOfDisp (d : Disp) : Literal := BitVec.ofInt 16 d

/-- Opcode group 0: the sub-operation that each argument nibble selects (R86). -/
def systemTable : Vector Instr 16 :=
  #v[.trapNull, .trapTrace, .trapSys, .trapExt, .mfsr, .mtsr, .shl, .shr,
     .jr, .callr, .ret, .nop, .mflr, .mtlr, .lpc, .halt]

/-- The opcode map by opcode group (R86), for one argument nibble and one literal. Only groups 8 to
15 use the literal. -/
def opcodeTable (arg : Nibble) (imm : Literal) : Vector Instr 16 :=
  #v[systemTable[arg.toNat]'arg.isLt,
     .test arg,
     .mf (regOfArg arg),
     .mt (regOfArg arg),
     .and (regOfArg arg),
     .or (regOfArg arg),
     .xor (regOfArg arg),
     .add (regOfArg arg),
     .b arg (dispOfLiteral imm),
     .call arg (dispOfLiteral imm),
     .ld (regOfArg arg) (dispOfLiteral imm),
     .st (regOfArg arg) (dispOfLiteral imm),
     .andi arg imm,
     .ori arg imm,
     .xori arg imm,
     .addi arg imm]

/-- The instruction of an opcode byte and a literal: "Dispatch is first on `op` (0–15); `op = 0`
further dispatches on `arg`" (R86). It is total (R87). -/
def instrOf (b0 : Byte) (imm : Literal) : Instr :=
  (opcodeTable (argField b0) imm)[(opField b0).toNat]'(opField b0).isLt

/-- Decode the instruction at the head of a list of bytes, and give the rest of the list. -/
def decode : List Byte → Except DecodeError (Instr × List Byte)
  | [] => .error .noOpcode
  | b0 :: rest =>
    if isLongOpcode b0 then
      match rest with
      | b1 :: b2 :: rest' => .ok (instrOf b0 (literalOfBytes b1 b2), rest')
      | _ => .error .noLiteral
    else .ok (instrOf b0 0, rest)

/-- An opcode byte from its two fields (R71). -/
def opcodeByte (op arg : Nibble) : Byte := op ++ arg

/-- The argument nibble that names a register (R90: "encoded `arg = N`"). -/
def argOfReg (r : Reg) : Nibble := BitVec.ofNat 4 r.val

/-- A format S instruction (R72). -/
def shortBytes (op arg : Nibble) : List Byte := [opcodeByte op arg]

/-- A format L instruction (R72): the opcode byte, `imm[7:0]`, `imm[15:8]`. -/
def longBytes (op arg : Nibble) (imm : Literal) : List Byte :=
  [opcodeByte op arg, imm.extractLsb' 0 8, imm.extractLsb' 8 8]

/-- The bytes of an instruction, in address order (R72, R86). -/
def encode : Instr → List Byte
  | .trapNull => shortBytes 0x0 0x0
  | .trapTrace => shortBytes 0x0 0x1
  | .trapSys => shortBytes 0x0 0x2
  | .trapExt => shortBytes 0x0 0x3
  | .mfsr => shortBytes 0x0 0x4
  | .mtsr => shortBytes 0x0 0x5
  | .shl => shortBytes 0x0 0x6
  | .shr => shortBytes 0x0 0x7
  | .jr => shortBytes 0x0 0x8
  | .callr => shortBytes 0x0 0x9
  | .ret => shortBytes 0x0 0xA
  | .nop => shortBytes 0x0 0xB
  | .mflr => shortBytes 0x0 0xC
  | .mtlr => shortBytes 0x0 0xD
  | .lpc => shortBytes 0x0 0xE
  | .halt => shortBytes 0x0 0xF
  | .test c => shortBytes 0x1 c
  | .mf r => shortBytes 0x2 (argOfReg r)
  | .mt r => shortBytes 0x3 (argOfReg r)
  | .and r => shortBytes 0x4 (argOfReg r)
  | .or r => shortBytes 0x5 (argOfReg r)
  | .xor r => shortBytes 0x6 (argOfReg r)
  | .add r => shortBytes 0x7 (argOfReg r)
  | .b c d => longBytes 0x8 c (literalOfDisp d)
  | .call c d => longBytes 0x9 c (literalOfDisp d)
  | .ld r d => longBytes 0xA (argOfReg r) (literalOfDisp d)
  | .st r d => longBytes 0xB (argOfReg r) (literalOfDisp d)
  | .andi a i => longBytes 0xC a i
  | .ori a i => longBytes 0xD a i
  | .xori a i => longBytes 0xE a i
  | .addi a i => longBytes 0xF a i

/-- The three bytes of an instruction word whose bits above `nbits` are 0, lowest bits first:
byte `k` is bits `8k+7 : 8k` (spec/30_encoding.md R72: `W = b0 + 2^8·b1 + 2^16·b2`). -/
def bytesOfTableWord (nbits w : Nat) : List Byte :=
  let v := w % 2 ^ nbits
  [BitVec.ofNat 8 v, BitVec.ofNat 8 (v / 2 ^ 8), BitVec.ofNat 8 (v / 2 ^ 16)]

/-- The instruction the decoder reads from an instruction word numbered as
spec/opcode_table.json numbers its bits. -/
def decodeTableWord (nbits w : Nat) : Option Instr :=
  match decode (bytesOfTableWord nbits w) with
  | .ok (i, _) => some i
  | .error _ => none

end Sys2Proof
end

