-- ==== Sys2Proof/Machine/Operands.lean ====
section
/-! DEFINITION. Every operand form of the spec: the sign-extended immediate (R76), the
pattern-extended immediate (R77), the shift amount (R108) and the relative target (R155). -/

namespace Sys2Proof.Machine

/-- The sign-extended immediate of a literal (R76). -/
def simm (imm : Literal) : Word := imm.signExtend 64

/-- The sign-extended immediate of a displacement operand (R155: `simm = sext_16(d mod 2^16)`). -/
def simmOfDisp (d : Disp) : Word := simm (literalOfDisp d)

/-- Apply one step of the pattern extension when its bit of the selector is set (R77). -/
def whenSet (bit : Bool) (f : Word → Word) (v : Word) : Word := if bit then f v else v

/-- R77 step 2: "set bits 16–31 to all ones". -/
def fillLane1 (v : Word) : Word := v ||| 0x00000000FFFF0000#64

/-- R77 step 3: swap bits 15:0 with bits 31:16. -/
def swapLowLanes (v : Word) : Word :=
  v.extractLsb' 32 32 ++ v.extractLsb' 0 16 ++ v.extractLsb' 16 16

/-- R77 step 4: "set bits 32–63 to all ones". -/
def fillHighHalf (v : Word) : Word := v ||| 0xFFFFFFFF00000000#64

/-- R77 step 5: swap bits 31:0 with bits 63:32. -/
def swapHalves (v : Word) : Word := v.extractLsb' 0 32 ++ v.extractLsb' 32 32

/-- The pattern-extended immediate: the five steps of R77 "applied in this exact order". The order
of the bits tested is 0, 2, 1, 3. UNVERIFIED against the source's own scenario (log 11). -/
def ximm (a : Pattern) (imm : Literal) : Word :=
  let v1 : Word := imm.setWidth 64
  let v2 := whenSet (a.getLsbD 0) fillLane1 v1
  let v3 := whenSet (a.getLsbD 2) swapLowLanes v2
  let v4 := whenSet (a.getLsbD 1) fillHighHalf v3
  whenSet (a.getLsbD 3) swapHalves v4

/-- The shift amount: `acc[5:0]` (R108; the spec's decision D6, log 9). -/
def shiftAmount (acc : Word) : Nat := (acc.extractLsb' 0 6).toNat

/-- `sr` shifted left by the amount in `acc` (R108, R126). -/
def shiftLeft (sr acc : Word) : Word := sr <<< shiftAmount acc

/-- `sr` shifted right by the amount in `acc`, zeros entering at bit 63 (R108, R127; the spec's
decision D7, log 9). -/
def shiftRight (sr acc : Word) : Word := sr >>> shiftAmount acc

/-- The target of a taken relative branch: `next_pc + simm`, modulo 2^64 (R155). -/
def relativeTarget (nextPc : Word) (d : Disp) : Word := nextPc + simmOfDisp d

end Sys2Proof.Machine
end

