-- ==== Sys2Proof/Machine/State.lean ====
section
/-! DEFINITION. The state of the Oort core (spec/10_state.md R20 to R31), as plain data: the
processor state of R27, the memory of R28, and the environment's side of the trap hook (R186). -/

namespace Sys2Proof.Machine

open Sys2Proof.Config

/-- The memory (R28): its capacity `memsize`, fixed at reset, and the bytes that are not zero, as
(address, byte) pairs with strictly rising addresses. An address that is not listed reads as
`Config.unlistedByte`. -/
structure Memory where
  size  : Nat
  cells : List Host.Cell
  deriving DecidableEq, Repr

/-- The read-only view of the state that the core presents to a trap hook (R186) and that the host
may observe (R6 item 5, R196). -/
structure StateView where
  pc  : Word
  acc : Word
  lr  : Word
  sr  : Word
  gpr : Vector Word 16
  mem : Memory
  deriving DecidableEq, Repr

/-- One invocation of the trap hook: what the core presented (R6 item 3, R186). -/
structure HookCall where
  kind : TrapKind
  view : StateView
  deriving DecidableEq, Repr

/-- The environment's side of the trap hook (R186), the model's own record, no register of the
core. DESIGN CHOICE (log 3): the free input of the step is held as plain data. -/
structure HookPort where
  /-- The answers to the coming invocations, oldest first. -/
  replies  : List HookReply
  /-- The answer to every invocation after `replies` is used up. -/
  fallback : HookReply
  /-- The invocations so far, latest first. -/
  calls    : List HookCall
  deriving DecidableEq, Repr

/-- The state of the machine. -/
structure State where
  /-- The program counter (R21). -/
  pc   : Word
  /-- The accumulator (R22). -/
  acc  : Word
  /-- The link register (R23). -/
  lr   : Word
  /-- The shift-source register (R24). -/
  sr   : Word
  /-- The sixteen general registers (R20). -/
  gpr  : Vector Word 16
  /-- The halt flag (R26). -/
  halt : Bool
  /-- The memory (R28). -/
  mem  : Memory
  /-- The environment's side of the trap hook (R186). -/
  hook : HookPort
  deriving DecidableEq, Repr

/-- Which access met an index outside memory (R180). -/
inductive AccessKind where
  | fetch
  | load
  | store
  deriving DecidableEq, Repr

/-- Why the machine stops. The state is the one before the step (R181). -/
inductive Fault where
  /-- `MemoryFault(kind, addr)` (R180): raised by the fetch of any instruction, by `ld` and by `st`,
  when the index `addr` is not below `memsize`. Safe: where the reference program's behaviour is
  undefined, the model stops. -/
  | memoryFault (kind : AccessKind) (addr : Word)
  deriving DecidableEq, Repr

/-- Why an instruction has no meaning. The spec knows no refusal (R10, R85), and none is raised. -/
inductive Refusal where
  /-- Raised only by an arm of `exec` that has no meaning yet; no arm is left so. Safe: the model
  stops. -/
  | notModelled (mnemonic : String)
  deriving DecidableEq, Repr

/-- The state right after reset (R31, R210), with the host's default `memsize` (R5; log 1), an image
that is all zeros (log 2) and the reference configuration of the trap hook (R186; log 4). The zeros
of `pc`, `acc`, `lr` and `sr` are the spec's decision D8 (log 6). -/
def State.reset : State where
  pc   := 0
  acc  := 0
  lr   := 0
  sr   := 0
  gpr  := Vector.replicate 16 0
  halt := false
  mem  := { size := defaultMemsize, cells := [] }
  hook := { replies := [], fallback := referenceReply, calls := [] }

end Sys2Proof.Machine
end

