-- ==== Sys2Proof/Machine/Ops.lean ====
section
/-! DEFINITION. The named operations over memory and registers: the byte store and its canonical
form, the rotated word access (spec/20_memory.md R43 to R47), the byte fetch (R50), raising the one
exception (spec/60_exceptions.md R180, R181) and invoking the trap hook (R186). -/

namespace Sys2Proof.Machine

open Sys2Proof.Config

/-! ### The byte store -/

/-- The byte that a list of cells holds at an address. -/
def getCell : List Host.Cell → Nat → Byte
  | [], _ => unlistedByte
  | (k, v) :: rest, a => if a = k then v else getCell rest a

/-- Put a byte at an address, keeping the addresses rising and listing no byte that an unlisted
address reads as. -/
def setCell : List Host.Cell → Nat → Byte → List Host.Cell
  | [], a, v => if v = unlistedByte then [] else [(a, v)]
  | (k, w) :: rest, a, v =>
    if a < k then
      if v = unlistedByte then (k, w) :: rest else (a, v) :: (k, w) :: rest
    else if a = k then
      if v = unlistedByte then rest else (k, v) :: rest
    else (k, w) :: setCell rest a v

/-- The canonical form of a list of cells: addresses strictly rising from `lo`, all below `size`,
and no cell that an unlisted address reads as. -/
def cellsWf (size : Nat) : Nat → List Host.Cell → Bool
  | _, [] => true
  | lo, (a, v) :: rest =>
    decide (lo ≤ a) && decide (a < size) && decide (v ≠ unlistedByte) && cellsWf size (a + 1) rest

/-- The capacities the spec admits: a positive multiple of 8, at most 2^64 − 8 (R5, R28, R211; the
upper bound is the spec's decision D9). -/
def sizeWf (size : Nat) : Bool :=
  decide (0 < size) && decide (size % wordBytes = 0) && decide (size ≤ maxMemsize)

/-- The memory is in canonical form and its capacity is one the spec admits. -/
def Memory.wf (m : Memory) : Bool := sizeWf m.size && cellsWf m.size 0 m.cells

/-- `M[a]`, the byte at index `a` (R9, R28). -/
def Memory.get (m : Memory) (a : Nat) : Byte := getCell m.cells a

/-- `M[a] <- v` (R9, R28). -/
def Memory.set (m : Memory) (a : Nat) (v : Byte) : Memory :=
  { m with cells := setCell m.cells a v }

/-- Store consecutive bytes from an index on. -/
def Memory.setBytes (m : Memory) (a : Nat) : List Byte → Memory
  | [] => m
  | v :: rest => (m.set a v).setBytes (a + 1) rest

/-- An index names a byte of memory exactly when it is below `memsize` (R28, R47, R54). -/
def Memory.inBounds (m : Memory) (idx : Word) : Bool := decide (idx.toNat < m.size)

/-! ### The exception -/

/-- Taking the one exception (R180, R181, R184): the step ends with `MemoryFault(kind, addr)` and
changes nothing; there is no vector, no saved register and no return from it (R187). -/
def raiseMemoryFault {α : Type} (kind : AccessKind) (addr : Word) : Except Fault α :=
  .error (.memoryFault kind addr)

/-! ### The rotated word access -/

/-- The base of the aligned block of an index: the index rounded down to a multiple of 8 (R43). -/
def blockBase (idx : Word) : Nat := wordBytes * (idx.toNat / wordBytes)

/-- The offset of an index in its aligned block: `idx mod 8` (R43). -/
def blockOffset (idx : Word) : Nat := idx.toNat % wordBytes

/-- The position of byte `i` of the word at an index: `base + ((off + i) mod 8)` (R44, R45). -/
def lanePos (idx : Word) (i : Nat) : Nat := blockBase idx + (blockOffset idx + i) % wordBytes

/-- Byte `i` of a word, little-endian: `v[8i+7 : 8i]` (R44, R48). -/
def byteOf (v : Word) (i : Nat) : Byte := v.extractLsb' (8 * i) 8

/-- The word whose byte `i` is `f i` (R44, R48). -/
def wordOf (f : Nat → Byte) : Word :=
  f 7 ++ f 6 ++ f 5 ++ f 4 ++ f 3 ++ f 2 ++ f 1 ++ f 0

/-- The word that R44 reads at an index, without the bounds check. -/
def Memory.rotatedWord (m : Memory) (idx : Word) : Word := wordOf fun i => m.get (lanePos idx i)

/-- The memory after R45 writes a word at an index, without the bounds check: eight bytes of one
aligned block. -/
def Memory.setRotatedWord (m : Memory) (idx v : Word) : Memory :=
  [0, 1, 2, 3, 4, 5, 6, 7].foldl (fun m' i => m'.set (lanePos idx i) (byteOf v i)) m

/-- `MemRead(idx, 8)` (R44), with the bounds check of R47. -/
def memRead (m : Memory) (idx : Word) : Except Fault Word :=
  if m.inBounds idx then .ok (m.rotatedWord idx) else raiseMemoryFault .load idx

/-- `MemWrite(idx, 8, v)` (R45), with the bounds check of R47. -/
def memWrite (m : Memory) (idx v : Word) : Except Fault Memory :=
  if m.inBounds idx then .ok (m.setRotatedWord idx v) else raiseMemoryFault .store idx

/-! ### Instruction fetch -/

/-- `FetchByte(a)` (R50): a plain byte read, neither rotated nor aligned (R51; the spec's decision
D4, log 8). -/
def fetchByte (m : Memory) (a : Word) : Except Fault Byte :=
  if m.inBounds a then .ok (m.get a.toNat) else raiseMemoryFault .fetch a

/-- Fetch and decode the instruction at `pc` (R50, R101): the opcode byte, and for format L the two
literal bytes, each checked in order, whether or not the instruction will use the literal. -/
def fetchInstr (m : Memory) (pc : Word) : Except Fault Instr :=
  match fetchByte m pc with
  | .error f => .error f
  | .ok b0 =>
    if isLongOpcode b0 then
      match fetchByte m (pc + 1) with
      | .error f => .error f
      | .ok b1 =>
        match fetchByte m (pc + 2) with
        | .error f => .error f
        | .ok b2 => .ok (instrOf b0 (literalOfBytes b1 b2))
    else .ok (instrOf b0 0)

/-! ### Registers -/

/-- The general register `gpr[r]` (R20). -/
def State.readGpr (s : State) (r : Reg) : Word := s.gpr[r.val]'r.isLt

/-- `gpr[r] <- v` (R20). -/
def State.setGpr (s : State) (r : Reg) (v : Word) : State := { s with gpr := s.gpr.set r.val v r.isLt }

/-- `acc <- v` (R22). -/
def State.setAcc (s : State) (v : Word) : State := { s with acc := v }

/-- `lr <- v` (R23). -/
def State.setLr (s : State) (v : Word) : State := { s with lr := v }

/-- `sr <- v` (R24). -/
def State.setSr (s : State) (v : Word) : State := { s with sr := v }

/-- `pc <- v`, the commit at the end of a step (R21, R101). -/
def State.setPc (s : State) (v : Word) : State := { s with pc := v }

/-- `halt <- true` (R26). -/
def State.setHalt (s : State) : State := { s with halt := true }

/-- Replace the memory. -/
def State.setMem (s : State) (m : Memory) : State := { s with mem := m }

/-- The address of the instruction after a format S instruction at `pc` (R21, R101). -/
def State.afterShort (s : State) : Word := s.pc + BitVec.ofNat 64 shortLength

/-- The address of the instruction after a format L instruction at `pc` (R21, R101). -/
def State.afterLong (s : State) : Word := s.pc + BitVec.ofNat 64 longLength

/-- The effective address of `ld` and `st`: `gpr[r] + simm`, modulo 2^64 (R159). -/
def State.effectiveAddress (s : State) (r : Reg) (d : Disp) : Word := s.readGpr r + simmOfDisp d

/-! ### The trap hook -/

/-- The view of the state that a hook is given (R186) and that the host may observe (R196). -/
def State.view (s : State) : StateView :=
  { pc := s.pc, acc := s.acc, lr := s.lr, sr := s.sr, gpr := s.gpr, mem := s.mem }

/-- The answer a reply holds for a kind of trap. -/
def replyFor (r : HookReply) : TrapKind → HookAnswer
  | .null => r.null
  | .trace => r.trace
  | .syscall => r.syscall
  | .extension => r.extension

/-- The reply the environment gives to the next invocation. -/
def HookPort.nextReply (h : HookPort) : HookReply := h.replies.headD h.fallback

/-- The port after one invocation: one reply is used up and the call is recorded. -/
def HookPort.afterCall (h : HookPort) (c : HookCall) : HookPort :=
  { h with replies := h.replies.tail, calls := c :: h.calls }

/-- The answer of the hook to a trap of a kind in this state (R186). -/
def State.hookAnswer (s : State) (k : TrapKind) : HookAnswer := replyFor s.hook.nextReply k

/-- Invoke the trap hook once, presenting the kind and the view of the state at the start of the
step, and set `halt` exactly when it answers `Halt` (R120 to R123, R186). The hook writes no
register and no memory (the spec's decision D10, log 5). -/
def State.invokeHook (s : State) (k : TrapKind) : State :=
  { s with
    halt := s.halt || decide (s.hookAnswer k = .halt)
    hook := s.hook.afterCall { kind := k, view := s.view } }

end Sys2Proof.Machine
end

