-- ==== Sys2Proof/Machine/Boot.lean ====
section
/-! DEFINITION. Reset with its two arguments (spec/70_reset_and_hazards.md R210), what the host does
with a requested size and a program file before that (R210, R211), and placing an instruction where
the next step fetches. -/

namespace Sys2Proof.Machine

open Sys2Proof.Config

/-- A zero-filled memory of a capacity (R28, R210). -/
def Memory.zeroed (memsize : Nat) : Memory := { size := memsize, cells := [] }

/-- Why no machine is constructed. It is an error of the host's level, before any step (R198), and no
outcome of a step. -/
inductive ResetError where
  /-- The capacity is not a positive multiple of 8 of at most 2^64 − 8 (R211; the spec's decision D9
  and entry U14: "`refuse` sizes outside"; log 14). Raised by `State.init` and `State.boot`. Safe: no
  machine of another capacity is made. -/
  | badMemsize (size : Nat)
  deriving DecidableEq, Repr

/-- Reset (R210): memory holds the image from index 0, zeros above it, and every register is at its
reset value. A model's `memsize` and image are arguments of reset (R5); a `memsize` that the spec
does not admit is refused (R211, U14). -/
def State.init (memsize : Nat) (image : List Byte) : Except ResetError State :=
  if sizeWf memsize then
    .ok { State.reset with mem := (Memory.zeroed memsize).setBytes 0 (image.take memsize) }
  else .error (.badMemsize memsize)

/-- The capacity the host makes of a requested size: "rounded up to the next multiple of 8"
(R211). -/
def memsizeOfRequest (requested : Nat) : Nat := wordBytes * ((requested + (wordBytes - 1)) / wordBytes)

/-- The machine the host constructs from a requested size and a program file: the file is cut or
padded with zeros to `memsize` bytes (R210, R211). A request of 0, or one above 2^64 − 8, is refused
(R211, U14). -/
def State.boot (requested : Nat) (file : List Byte) : Except ResetError State :=
  State.init (memsizeOfRequest requested) file

/-- The same machine with another trap hook attached at construction (R186): answers to come, then a
constant answer. -/
def State.withHook (s : State) (replies : List HookReply) (fallback : HookReply) : State :=
  { s with hook := { replies := replies, fallback := fallback, calls := s.hook.calls } }

/-- Store bytes where the next step fetches, with the machine running. Where they would not fit in
memory from `pc` on, `pc` is set to 0 first (DESIGN CHOICE, log 13). -/
def State.placeAtPc (s : State) (bytes : List Byte) : State :=
  let pc := if s.pc.toNat + bytes.length ≤ s.mem.size then s.pc else 0
  { s with pc := pc, halt := false, mem := s.mem.setBytes pc.toNat bytes }

end Sys2Proof.Machine
end

