-- ==== Sys2Proof/Machine/Flags.lean ====
section
/-! DEFINITION. The condition evaluator (spec/30_encoding.md R80, R81). The core stores no flag
(spec/10_state.md R25): the category is a pure function of `acc`, computed when it is needed. -/

namespace Sys2Proof.Machine

/-- The four condition categories of a 64-bit value (R80). -/
inductive Category where
  | zero
  | positive
  | minimum
  | negative
  deriving DecidableEq, Repr

/-- The number of a category: 0 zero, 1 positive, 2 minimum, 3 other negative (R80). -/
def Category.number : Category → Nat
  | .zero => 0
  | .positive => 1
  | .minimum => 2
  | .negative => 3

/-- `sign`: bit 63 (R80). -/
def signBit (v : Word) : Bool := v.getLsbD 63

/-- `rest`: whether any bit other than bit 63 is set (R80). -/
def restBit (v : Word) : Bool := v.extractLsb' 0 63 != 0

/-- The condition category of a value, by `sign` and `rest` (R80: `2*sign + rest`). -/
def category (v : Word) : Category :=
  match signBit v, restBit v with
  | false, false => .zero
  | false, true  => .positive
  | true,  false => .minimum
  | true,  true  => .negative

/-- The condition result: "`cond = 1` iff bit `category` of `arg` is set" (R81). -/
def condHolds (c : Selector) (acc : Word) : Bool := c.getLsbD (category acc).number

/-- The mask that `test` writes: all ones or zero (R140, R109). -/
def testMask (result : Bool) : Word := if result then BitVec.allOnes 64 else 0

end Sys2Proof.Machine
end

