-- ==== Sys2Proof/Machine/Branch.lean ====
section
/-! DEFINITION. Opcode groups 8 and 9: conditional relative branch and call
(spec/44_branch_call.md R155, R156). -/

namespace Sys2Proof.Machine

/-- `b c, d`: when `cond = 1`, `next_pc <- next_pc + simm` (R155). -/
def execB (c : Selector) (d : Disp) (s : State) : Host.Outcome State Fault Refusal :=
  if condHolds c s.acc then .next (s.setPc (relativeTarget s.afterLong d))
  else .next (s.setPc s.afterLong)

/-- `call c, d`: when `cond = 1`, `lr <- next_pc`, then `next_pc <- next_pc + simm`; `lr` is written
only when the call is taken (R156, R102; log 12). -/
def execCall (c : Selector) (d : Disp) (s : State) : Host.Outcome State Fault Refusal :=
  if condHolds c s.acc then .next ((s.setLr s.afterLong).setPc (relativeTarget s.afterLong d))
  else .next (s.setPc s.afterLong)

end Sys2Proof.Machine
end

