-- ==== Sys2Proof/Machine/Immediate.lean ====
section
/-! DEFINITION. Opcode groups C to F: ALU operations with a pattern-extended immediate
(spec/46_immediate_alu.md R165 to R168). -/

namespace Sys2Proof.Machine

/-- Write a result to `acc` and go on after a format L instruction. -/
def accLong (v : Word) (s : State) : Host.Outcome State Fault Refusal :=
  .next ((s.setAcc v).setPc s.afterLong)

/-- `andi a, i`: `acc <- acc & ximm` (R165). -/
def execAndi (a : Pattern) (i : Literal) (s : State) : Host.Outcome State Fault Refusal :=
  accLong (s.acc &&& ximm a i) s

/-- `ori a, i`: `acc <- acc | ximm` (R166). -/
def execOri (a : Pattern) (i : Literal) (s : State) : Host.Outcome State Fault Refusal :=
  accLong (s.acc ||| ximm a i) s

/-- `xori a, i`: `acc <- acc ^ ximm` (R167). -/
def execXori (a : Pattern) (i : Literal) (s : State) : Host.Outcome State Fault Refusal :=
  accLong (s.acc ^^^ ximm a i) s

/-- `addi a, i`: `acc <- acc + ximm`, modulo 2^64 (R168). -/
def execAddi (a : Pattern) (i : Literal) (s : State) : Host.Outcome State Fault Refusal :=
  accLong (s.acc + ximm a i) s

end Sys2Proof.Machine
end

