-- ==== Sys2Proof/Machine/LoadStore.lean ====
section
/-! DEFINITION. Opcode groups A and B: load and store (spec/45_load_store.md R159 to R161). -/

namespace Sys2Proof.Machine

/-- `ld rN, d`: `acc <- MemRead(gpr[r] + simm, 8)`, or `MemoryFault(Load, idx)` (R160). -/
def execLd (r : Reg) (d : Disp) (s : State) : Host.Outcome State Fault Refusal :=
  match memRead s.mem (s.effectiveAddress r d) with
  | .ok v => .next ((s.setAcc v).setPc s.afterLong)
  | .error f => .fault f

/-- `st rN, d`: `MemWrite(gpr[r] + simm, 8, acc)`, or `MemoryFault(Store, idx)` (R161). -/
def execSt (r : Reg) (d : Disp) (s : State) : Host.Outcome State Fault Refusal :=
  match memWrite s.mem (s.effectiveAddress r d) s.acc with
  | .ok m => .next ((s.setMem m).setPc s.afterLong)
  | .error f => .fault f

end Sys2Proof.Machine
end

