-- ==== Sys2Proof/Machine/Register.lean ====
section
/-! DEFINITION. Opcode groups 1 to 7: `test` (spec/42_test.md R140), the register moves and the
register ALU operations (spec/43_register_ops.md R145 to R150). -/

namespace Sys2Proof.Machine

/-- Write a result to `acc` and go on after a format S instruction. -/
def accShort (v : Word) (s : State) : Host.Outcome State Fault Refusal :=
  .next ((s.setAcc v).setPc s.afterShort)

/-- `test c`: `acc` becomes all ones where `cond = 1`, else 0 (R140). -/
def execTest (c : Selector) (s : State) : Host.Outcome State Fault Refusal :=
  accShort (testMask (condHolds c s.acc)) s

/-- `mf rN`: `acc <- gpr[r]` (R145). -/
def execMf (r : Reg) (s : State) : Host.Outcome State Fault Refusal :=
  accShort (s.readGpr r) s

/-- `mt rN`: `gpr[r] <- acc` (R146). -/
def execMt (r : Reg) (s : State) : Host.Outcome State Fault Refusal :=
  .next ((s.setGpr r s.acc).setPc s.afterShort)

/-- `and rN`: `acc <- acc & gpr[r]` (R147). -/
def execAnd (r : Reg) (s : State) : Host.Outcome State Fault Refusal :=
  accShort (s.acc &&& s.readGpr r) s

/-- `or rN`: `acc <- acc | gpr[r]` (R148). -/
def execOr (r : Reg) (s : State) : Host.Outcome State Fault Refusal :=
  accShort (s.acc ||| s.readGpr r) s

/-- `xor rN`: `acc <- acc ^ gpr[r]` (R149). -/
def execXor (r : Reg) (s : State) : Host.Outcome State Fault Refusal :=
  accShort (s.acc ^^^ s.readGpr r) s

/-- `add rN`: `acc <- acc + gpr[r]`, modulo 2^64 (R150). -/
def execAdd (r : Reg) (s : State) : Host.Outcome State Fault Refusal :=
  accShort (s.acc + s.readGpr r) s

end Sys2Proof.Machine
end

