-- ==== Sys2Proof/Machine/System.lean ====
section
/-! DEFINITION. Opcode group 0 without the traps (spec/41_op0_system_control.md R124 to R135): the
moves of `sr` and `lr`, the shifts, indirect control, `nop`, `lpc` and `halt`. -/

namespace Sys2Proof.Machine

/-- `mfsr`: `acc <- sr` (R124). -/
def execMfsr (s : State) : Host.Outcome State Fault Refusal :=
  .next ((s.setAcc s.sr).setPc s.afterShort)

/-- `mtsr`: `sr <- acc` (R125). -/
def execMtsr (s : State) : Host.Outcome State Fault Refusal :=
  .next ((s.setSr s.acc).setPc s.afterShort)

/-- `shl`: `acc <- sr << acc[5:0]` (R126). -/
def execShl (s : State) : Host.Outcome State Fault Refusal :=
  .next ((s.setAcc (shiftLeft s.sr s.acc)).setPc s.afterShort)

/-- `shr`: `acc <- sr >> acc[5:0]`, logical (R127). -/
def execShr (s : State) : Host.Outcome State Fault Refusal :=
  .next ((s.setAcc (shiftRight s.sr s.acc)).setPc s.afterShort)

/-- `jr`: `next_pc <- acc` (R128). -/
def execJr (s : State) : Host.Outcome State Fault Refusal :=
  .next (s.setPc s.acc)

/-- `callr`: `lr <- next_pc`, then `next_pc <- acc` (R129, R102). -/
def execCallr (s : State) : Host.Outcome State Fault Refusal :=
  .next ((s.setLr s.afterShort).setPc s.acc)

/-- `ret`: `next_pc <- lr` (R130). -/
def execRet (s : State) : Host.Outcome State Fault Refusal :=
  .next (s.setPc s.lr)

/-- `nop` (R131). -/
def execNop (s : State) : Host.Outcome State Fault Refusal :=
  .next (s.setPc s.afterShort)

/-- `mflr`: `acc <- lr` (R132). -/
def execMflr (s : State) : Host.Outcome State Fault Refusal :=
  .next ((s.setAcc s.lr).setPc s.afterShort)

/-- `mtlr`: `lr <- acc` (R133). -/
def execMtlr (s : State) : Host.Outcome State Fault Refusal :=
  .next ((s.setLr s.acc).setPc s.afterShort)

/-- `lpc`: `acc <- next_pc` (R134). -/
def execLpc (s : State) : Host.Outcome State Fault Refusal :=
  .next ((s.setAcc s.afterShort).setPc s.afterShort)

/-- `halt`: `halt <- true`; `pc` still advances (R135, R103; the spec's decision D11, log 10). -/
def execHalt (s : State) : Host.Outcome State Fault Refusal :=
  .next (s.setHalt.setPc s.afterShort)

end Sys2Proof.Machine
end

