-- ==== Sys2Proof/Machine/Traps.lean ====
section
/-! DEFINITION. The four trap instructions (spec/41_op0_system_control.md R120 to R123): each
invokes the hook once with its own kind and goes on at `pc + 1`, whatever the hook answers (R103). -/

namespace Sys2Proof.Machine

open Sys2Proof.Config

/-- A trap instruction of a kind (R186): invoke the hook, then `pc <- pc + 1`. -/
def trapStep (k : TrapKind) (s : State) : Host.Outcome State Fault Refusal :=
  .next ((s.invokeHook k).setPc s.afterShort)

/-- `trap.null` (R120). -/
def execTrapNull (s : State) : Host.Outcome State Fault Refusal := trapStep .null s

/-- `trap.trace` (R121). -/
def execTrapTrace (s : State) : Host.Outcome State Fault Refusal := trapStep .trace s

/-- `trap.sys` (R122). -/
def execTrapSys (s : State) : Host.Outcome State Fault Refusal := trapStep .syscall s

/-- `trap.ext` (R123). -/
def execTrapExt (s : State) : Host.Outcome State Fault Refusal := trapStep .extension s

end Sys2Proof.Machine
end

