-- ==== Sys2Proof/Machine/Dispatch.lean ====
section
/-! DEFINITION. The execute and commit part of a step (spec/40_step_cycle.md R101), one arm for each
instruction of spec/30_encoding.md R86. -/

namespace Sys2Proof.Machine

def exec (i : Instr) (s : State) : Host.Outcome State Fault Refusal :=
  match i with
  | .trapNull => Sys2Proof.Machine.execTrapNull s
  | .trapTrace => Sys2Proof.Machine.execTrapTrace s
  | .trapSys => Sys2Proof.Machine.execTrapSys s
  | .trapExt => Sys2Proof.Machine.execTrapExt s
  | .mfsr => Sys2Proof.Machine.execMfsr s
  | .mtsr => Sys2Proof.Machine.execMtsr s
  | .shl => Sys2Proof.Machine.execShl s
  | .shr => Sys2Proof.Machine.execShr s
  | .jr => Sys2Proof.Machine.execJr s
  | .callr => Sys2Proof.Machine.execCallr s
  | .ret => Sys2Proof.Machine.execRet s
  | .nop => Sys2Proof.Machine.execNop s
  | .mflr => Sys2Proof.Machine.execMflr s
  | .mtlr => Sys2Proof.Machine.execMtlr s
  | .lpc => Sys2Proof.Machine.execLpc s
  | .halt => Sys2Proof.Machine.execHalt s
  | .test c => Sys2Proof.Machine.execTest c s
  | .mf r => Sys2Proof.Machine.execMf r s
  | .mt r => Sys2Proof.Machine.execMt r s
  | .and r => Sys2Proof.Machine.execAnd r s
  | .or r => Sys2Proof.Machine.execOr r s
  | .xor r => Sys2Proof.Machine.execXor r s
  | .add r => Sys2Proof.Machine.execAdd r s
  | .b c d => Sys2Proof.Machine.execB c d s
  | .call c d => Sys2Proof.Machine.execCall c d s
  | .ld r d => Sys2Proof.Machine.execLd r d s
  | .st r d => Sys2Proof.Machine.execSt r d s
  | .andi a k => Sys2Proof.Machine.execAndi a k s
  | .ori a k => Sys2Proof.Machine.execOri a k s
  | .xori a k => Sys2Proof.Machine.execXori a k s
  | .addi a k => Sys2Proof.Machine.execAddi a k s

end Sys2Proof.Machine
end

