-- ==== Sys2Proof/Machine/Step.lean ====
section
/-! DEFINITION. One step of the core (spec/40_step_cycle.md R100, R101). -/

namespace Sys2Proof.Machine

/-- One step: nothing when `halt` is already true (R100, the outcome `Idle` of R10; log 15), else
fetch, decode, execute and commit (R101). A fault leaves the state as it was (R181). -/
def step (s : State) : Host.Outcome State Fault Refusal :=
  if s.halt then .next s
  else
    match fetchInstr s.mem s.pc with
    | .ok i => exec i s
    | .error f => .fault f

/-- The state with an instruction word stored where `step` fetches its next instruction. -/
def State.withFetchWord (s : State) (nbits w : Nat) : State :=
  s.placeAtPc (bytesOfTableWord nbits w)

end Sys2Proof.Machine
end

