-- ==== Sys2Proof/Machine/Driver.lean ====
section
/-! DEFINITION. The Step Driver (spec/40_step_cycle.md R104): `while not halt: step()`. A run may
never end, so the model's driver takes a bound on the number of steps. -/

namespace Sys2Proof.Machine

/-- How a run stands after a bounded number of steps (R104). -/
inductive RunEnd where
  /-- A step has set `halt`; the state is final. -/
  | halted (s : State)
  /-- A step faulted; the run is over and not final, and the state is the one before that step. -/
  | faulted (s : State) (f : Fault)
  /-- A step was refused; no step is (R10). -/
  | refused (s : State) (r : Refusal)
  /-- The bound is used up and the core is still running. -/
  | running (s : State)
  deriving DecidableEq, Repr

/-- The Step Driver, for at most `n` steps (R104; stopping at a fault is the spec's decision D15,
log 7). -/
def drive : Nat → State → RunEnd
  | 0, s => if s.halt then .halted s else .running s
  | n + 1, s =>
    if s.halt then .halted s
    else
      match step s with
      | .next t => drive n t
      | .fault f => .faulted s f
      | .refused r => .refused s r

end Sys2Proof.Machine
end

