-- ==== Sys2Proof/Machine/Record.lean ====
section
/-! DEFINITION. The step as the spec's own pseudocode writes it, by the decoder's record
(spec/30_encoding.md R70 to R75, spec/40_step_cycle.md R101): a second description of the machine
beside `step`, which goes through the instruction syntax. A statement says the two agree. -/

namespace Sys2Proof.Machine

open Sys2Proof.Config

/-- The record the decoder computes in each step (R70). It is not state (R30). -/
structure Record where
  op     : Nibble
  arg    : Nibble
  length : Nat
  imm    : Literal
  simm   : Word
  ximm   : Word
  cond   : Bool
  deriving DecidableEq, Repr

/-- The record of an opcode byte and a literal, for the `acc` at the start of the step (R71 to R77,
R80, R81). Which extension is computed is chosen by the top two bits of `op` (R75); `cond` is
computed for every group, used or not (R81, log 16). -/
def recordOf (b0 : Byte) (imm : Literal) (acc : Word) : Record :=
  let op := opField b0
  let arg := argField b0
  { op := op
    arg := arg
    length := if op.getLsbD 3 then longLength else shortLength
    imm := imm
    simm := if op.getLsbD 3 && !op.getLsbD 2 then simm imm else 0
    ximm := if op.getLsbD 3 && op.getLsbD 2 then ximm arg imm else 0
    cond := condHolds arg acc }

/-- Fetch and decode into a record (R101). A short instruction has `imm = 0` (R74). -/
def fetchRecord (m : Memory) (pc acc : Word) : Except Fault Record :=
  match fetchByte m pc with
  | .error f => .error f
  | .ok b0 =>
    if (opField b0).getLsbD 3 then
      match fetchByte m (pc + 1) with
      | .error f => .error f
      | .ok b1 =>
        match fetchByte m (pc + 2) with
        | .error f => .error f
        | .ok b2 => .ok (recordOf b0 (literalOfBytes b1 b2) acc)
    else .ok (recordOf b0 0 acc)

/-- The sub-operations of opcode group 0, by `arg` (R86, R120 to R135): the state with its writes,
and `next_pc`. -/
def systemByRecord (arg : Nat) (s : State) (nextPc : Word) : State × Word :=
  match arg with
  | 0 => (s.invokeHook .null, nextPc)
  | 1 => (s.invokeHook .trace, nextPc)
  | 2 => (s.invokeHook .syscall, nextPc)
  | 3 => (s.invokeHook .extension, nextPc)
  | 4 => ({ s with acc := s.sr }, nextPc)
  | 5 => ({ s with sr := s.acc }, nextPc)
  | 6 => ({ s with acc := s.sr <<< (s.acc.toNat % 64) }, nextPc)
  | 7 => ({ s with acc := s.sr >>> (s.acc.toNat % 64) }, nextPc)
  | 8 => (s, s.acc)
  | 9 => ({ s with lr := nextPc }, s.acc)
  | 10 => (s, s.lr)
  | 11 => (s, nextPc)
  | 12 => ({ s with acc := s.lr }, nextPc)
  | 13 => ({ s with lr := s.acc }, nextPc)
  | 14 => ({ s with acc := nextPc }, nextPc)
  | _ => ({ s with halt := true }, nextPc)

/-- The execute part of R101, dispatched on `op` (R86): the state with the instruction's writes and
`next_pc`, or a fault. -/
def executeByRecord (d : Record) (s : State) (nextPc : Word) : Except Fault (State × Word) :=
  let reg := s.readGpr (regOfArg d.arg)
  match d.op.toNat with
  | 0 => .ok (systemByRecord d.arg.toNat s nextPc)
  | 1 => .ok ({ s with acc := if d.cond then BitVec.allOnes 64 else 0 }, nextPc)
  | 2 => .ok ({ s with acc := reg }, nextPc)
  | 3 => .ok (s.setGpr (regOfArg d.arg) s.acc, nextPc)
  | 4 => .ok ({ s with acc := s.acc &&& reg }, nextPc)
  | 5 => .ok ({ s with acc := s.acc ||| reg }, nextPc)
  | 6 => .ok ({ s with acc := s.acc ^^^ reg }, nextPc)
  | 7 => .ok ({ s with acc := s.acc + reg }, nextPc)
  | 8 => .ok (s, if d.cond then nextPc + d.simm else nextPc)
  | 9 => if d.cond then .ok ({ s with lr := nextPc }, nextPc + d.simm) else .ok (s, nextPc)
  | 10 => (memRead s.mem (reg + d.simm)).map fun v => ({ s with acc := v }, nextPc)
  | 11 => (memWrite s.mem (reg + d.simm) s.acc).map fun m => ({ s with mem := m }, nextPc)
  | 12 => .ok ({ s with acc := s.acc &&& d.ximm }, nextPc)
  | 13 => .ok ({ s with acc := s.acc ||| d.ximm }, nextPc)
  | 14 => .ok ({ s with acc := s.acc ^^^ d.ximm }, nextPc)
  | _ => .ok ({ s with acc := s.acc + d.ximm }, nextPc)

/-- The step by the record (R100, R101): fetch and decode, execute with `next_pc = pc + length`,
commit `pc`. -/
def stepByRecord (s : State) : Host.Outcome State Fault Refusal :=
  if s.halt then .next s
  else
    match fetchRecord s.mem s.pc s.acc with
    | .error f => .fault f
    | .ok d =>
      match executeByRecord d s (s.pc + BitVec.ofNat 64 d.length) with
      | .error f => .fault f
      | .ok (t, nextPc) => .next { t with pc := nextPc }

end Sys2Proof.Machine
end

