-- ==== Sys2Proof/Safety.lean ====
section
/-! DEFINITION. The terms that statements about the machine use: the invariant of every state, what
stands at `pc`, the condition selectors in words, the first cause of a fault, and runs under a trap
hook that is any function. -/

namespace Sys2Proof.Machine

open Sys2Proof.Config

/-- The invariant of the machine: the memory is in canonical form and its capacity is a positive
multiple of 8, at most 2^64 − 8 (R28, R211). -/
abbrev State.Inv (s : State) : Prop := s.mem.wf = true

/-- `n` bytes of memory from an index on. -/
def Memory.bytesAt (m : Memory) (a : Nat) : Nat → List Byte
  | 0 => []
  | n + 1 => m.get a :: m.bytesAt (a + 1) n

/-- The core is running and these bytes stand at `pc`, all in bounds. -/
abbrev State.RunsBytes (s : State) (bytes : List Byte) : Prop :=
  s.halt = false ∧ s.pc.toNat + bytes.length ≤ s.mem.size ∧
    s.mem.bytesAt s.pc.toNat bytes.length = bytes

/-- The condition selectors in words (R80, R81): bit 0 for zero, bit 1 for a value up to 2^63 − 1,
bit 2 for 2^63 exactly, bit 3 for the rest. -/
def selects (c : Selector) (v : Word) : Bool :=
  if v.toNat = 0 then c.getLsbD 0
  else if v.toNat < 2 ^ 63 then c.getLsbD 1
  else if v.toNat = 2 ^ 63 then c.getLsbD 2
  else c.getLsbD 3

/-- The lane that bits 16j+15 : 16j of a value form (R7). -/
def lane (v : Word) (j : Nat) : Literal := v.extractLsb' (16 * j) 16

/-- A filled or an empty lane (R78). -/
def laneFill (bit : Bool) : Literal := if bit then 0xFFFF else 0x0000

/-- The effective address that a load or store at `pc` computes, read off its three bytes: the
general register that the low nibble of the opcode byte names, plus the sign-extended literal
(R159, R74, R76). -/
def State.addressAtPc (s : State) : Word :=
  let b0 := s.mem.get s.pc.toNat
  let literal := (s.mem.get (s.pc.toNat + 1)).toNat + 256 * (s.mem.get (s.pc.toNat + 2)).toNat
  s.readGpr ⟨b0.toNat % 16, Nat.mod_lt _ (by decide)⟩ + (BitVec.ofNat 16 literal).signExtend 64

/-- The causes of a fault, in the order of their priority (R180, R183): what the next step reports,
if anything. -/
def State.firstFault (s : State) : Option (AccessKind × Word) :=
  let b0 := (s.mem.get s.pc.toNat).toNat
  if s.halt then none
  else if s.mem.size ≤ s.pc.toNat then some (.fetch, s.pc)
  else if 0x80 ≤ b0 ∧ s.mem.size ≤ s.pc.toNat + 1 then some (.fetch, s.pc + 1)
  else if 0x80 ≤ b0 ∧ s.mem.size ≤ s.pc.toNat + 2 then some (.fetch, s.pc + 2)
  else if 0xA0 ≤ b0 ∧ b0 < 0xB0 ∧ s.mem.size ≤ s.addressAtPc.toNat then some (.load, s.addressAtPc)
  else if 0xB0 ≤ b0 ∧ b0 < 0xC0 ∧ s.mem.size ≤ s.addressAtPc.toNat then some (.store, s.addressAtPc)
  else none

/-- A run of `n` steps that meets neither a fault nor a refusal. -/
def RunsSafely (n : Nat) (s : State) : Prop := ∃ t, Sys2Proof.core.run n s = .next t

/-- A trap hook that is any function of the kind, the view of the state and what was presented
before (R186: "The hook's answer may depend on anything"). -/
abbrev HookFunction := TrapKind → StateView → List HookCall → HookAnswer

/-- The state with the answers that a hook function gives in it. -/
def State.underHook (H : HookFunction) (s : State) : State :=
  s.withHook []
    { null := H .null s.view s.hook.calls
      trace := H .trace s.view s.hook.calls
      syscall := H .syscall s.view s.hook.calls
      extension := H .extension s.view s.hook.calls }

/-- `n` steps with the hook answered by a function. -/
def runUnderHook (H : HookFunction) : Nat → State → Host.Outcome State Fault Refusal
  | 0, s => .next s
  | n + 1, s =>
    match step (s.underHook H) with
    | .next t => runUnderHook H n t
    | .fault f => .fault f
    | .refused r => .refused r

/-- Two states agree in everything but the answers the environment has still to give. -/
def State.SameCore (s t : State) : Prop :=
  s.withHook [] referenceReply = t.withHook [] referenceReply

/-- Two outcomes agree: the same stop, or next states that agree in everything but the answers the
environment has still to give. -/
def SameOutcome : Host.Outcome State Fault Refusal → Host.Outcome State Fault Refusal → Prop
  | .next s, .next t => s.SameCore t
  | .fault f, .fault g => f = g
  | .refused r, .refused q => r = q
  | _, _ => False

/-- The same outcome with another trap hook attached. -/
def outcomeWithHook (q : List HookReply) (f : HookReply) :
    Host.Outcome State Fault Refusal → Host.Outcome State Fault Refusal
  | .next s => .next (s.withHook q f)
  | .fault g => .fault g
  | .refused r => .refused r

/-- The four trap instructions (R185). -/
def trapKindOf : Instr → Option TrapKind
  | .trapNull => some .null
  | .trapTrace => some .trace
  | .trapSys => some .syscall
  | .trapExt => some .extension
  | .mfsr | .mtsr | .shl | .shr | .jr | .callr | .ret | .nop => none
  | .mflr | .mtlr | .lpc | .halt | .test _ => none
  | .mf _ | .mt _ | .and _ | .or _ | .xor _ | .add _ => none
  | .b _ _ | .call _ _ | .ld _ _ | .st _ _ => none
  | .andi _ _ | .ori _ _ | .xori _ _ | .addi _ _ => none

/-- The instructions that may replace `next_pc` (R128 to R130, R155, R156). -/
def transfersControl : Instr → Bool
  | .jr | .callr | .ret | .b _ _ | .call _ _ => true
  | .trapNull | .trapTrace | .trapSys | .trapExt => false
  | .mfsr | .mtsr | .shl | .shr | .nop | .mflr | .mtlr | .lpc | .halt | .test _ => false
  | .mf _ | .mt _ | .and _ | .or _ | .xor _ | .add _ | .ld _ _ | .st _ _ => false
  | .andi _ _ | .ori _ _ | .xori _ _ | .addi _ _ => false

/-- The instructions that write `acc` (R22). -/
def writesAcc : Instr → Bool
  | .mfsr | .shl | .shr | .mflr | .lpc | .test _ => true
  | .mf _ | .and _ | .or _ | .xor _ | .add _ | .ld _ _ => true
  | .andi _ _ | .ori _ _ | .xori _ _ | .addi _ _ => true
  | .trapNull | .trapTrace | .trapSys | .trapExt => false
  | .mtsr | .jr | .callr | .ret | .nop | .mtlr | .halt => false
  | .mt _ | .b _ _ | .call _ _ | .st _ _ => false

end Sys2Proof.Machine
end

