-- ==== Sys2Proof/Certificates/Slice0/Obligations.lean ====
section
/-! DEFINITION. The statements about the Oort core. Each docstring names the rules of spec/ that the
statement formalises, and says where a clause rests on one of the spec's own decisions or
derivations. -/

open Sys2Proof Sys2Proof.Machine Sys2Proof.Config

/-! ### Reset -/

/-- R31: the state after reset. The zeros of `pc`, `acc`, `lr` and `sr` are the spec's decision D8
(log 6). That memory is all zeros is the model's choice of the reset argument `image` (log 2). -/
def Obligations.ResetClearsEveryRegister : Prop :=
  State.reset.pc = 0 ∧ State.reset.acc = 0 ∧ State.reset.lr = 0 ∧ State.reset.sr = 0 ∧
    (∀ r, State.reset.readGpr r = 0) ∧ State.reset.halt = false ∧
    (∀ a, State.reset.mem.get a = 0)

/-- R28, R211: the invariant of StepKeepsMemoryWellFormed holds right after reset. -/
def Obligations.ResetMemoryWellFormed : Prop := State.reset.Inv

/-- R210: reset with its two arguments. Memory holds the image from index 0, cut at `memsize`, and
zero above it; every register is zero and the core is running. -/
def Obligations.ResetLoadsImage : Prop :=
  ∀ (memsize : Nat) (image : List Byte), sizeWf memsize = true →
    ∃ s : State, State.init memsize image = .ok s ∧ s.Inv ∧ s.mem.size = memsize ∧
      (∀ a, a < memsize → s.mem.get a = image.getD a 0) ∧
      s.pc = 0 ∧ s.acc = 0 ∧ s.lr = 0 ∧ s.sr = 0 ∧ (∀ r, s.readGpr r = 0) ∧ s.halt = false

/-- R211: the host makes of a requested size of at least 1 (and at most 2^64 − 8, R5) the next
multiple of 8, which is the capacity of the machine it constructs, and the bytes the program file
does not reach are zero. A `memsize` that is not a positive multiple of 8 of at most 2^64 − 8 is
refused, and with it a request of 0 and one above 2^64 − 8. The range of `memsize` is the spec's
decision D9 (log 14). -/
def Obligations.RequestedSizeRoundsUp : Prop :=
  (∀ (requested : Nat) (file : List Byte), 1 ≤ requested → requested ≤ maxMemsize →
    0 < memsizeOfRequest requested ∧ memsizeOfRequest requested % 8 = 0 ∧
      requested ≤ memsizeOfRequest requested ∧ memsizeOfRequest requested < requested + 8 ∧
      ∃ s : State, State.boot requested file = .ok s ∧ s.Inv ∧
        s.mem.size = memsizeOfRequest requested ∧
        ∀ a, file.length ≤ a → s.mem.get a = 0) ∧
    memsizeOfRequest defaultMemsize = defaultMemsize ∧
    (∀ (memsize : Nat) (image : List Byte),
      ¬(8 ≤ memsize ∧ memsize % 8 = 0 ∧ memsize ≤ 2 ^ 64 - 8) →
      State.init memsize image = .error (.badMemsize memsize)) ∧
    (∀ (requested : Nat) (file : List Byte), requested = 0 ∨ maxMemsize < requested →
      State.boot requested file = .error (.badMemsize (memsizeOfRequest requested)))

/-! ### Encoding -/

/-- R87: "the encoder `instruction ↦ bytes` is its inverse": every well-formed instruction decodes
from its own bytes, whatever follows them. -/
def Obligations.DecodeOfEncode : Prop :=
  ∀ (i : Instr) (rest : List Byte), i.wellFormed = true → decode (encode i ++ rest) = .ok (i, rest)

/-- R87: whatever decodes is a well-formed instruction, and its bytes are exactly the ones read. -/
def Obligations.EncodeOfDecode : Prop :=
  ∀ (bytes rest : List Byte) (i : Instr), decode bytes = .ok (i, rest) →
    i.wellFormed = true ∧ encode i ++ rest = bytes

/-- R85, R73: every opcode byte selects an instruction whatever the literal, of length 3 exactly when
bit 7 of the opcode byte is set. -/
def Obligations.EveryOpcodeByteDecodes : Prop :=
  ∀ (b0 b1 b2 : Byte) (rest : List Byte), ∃ i : Instr,
    decode (b0 :: b1 :: b2 :: rest) =
        .ok (i, if b0.toNat < 128 then b1 :: b2 :: rest else rest) ∧
      i.length = if b0.toNat < 128 then 1 else 3

/-- R86: words written out from the opcode map, one or more of each family. -/
def Obligations.OpcodeMapWordsDecode : Prop :=
  decodeTableWord 8 0x00 = some .trapNull ∧ decodeTableWord 8 0x07 = some .shr ∧
    decodeTableWord 8 0x0F = some .halt ∧ decodeTableWord 8 0x1F = some (.test 0xF) ∧
    decodeTableWord 8 0x35 = some (.mt 5) ∧ decodeTableWord 8 0x7F = some (.add 15) ∧
    decodeTableWord 24 0xFFF58E = some (.b 0xE (-11)) ∧
    decodeTableWord 24 0x00049F = some (.call 0xF 4) ∧
    decodeTableWord 24 0x0002A1 = some (.ld 1 2) ∧
    decodeTableWord 24 0x8000BF = some (.st 15 (-32768)) ∧
    decodeTableWord 24 0x6942F9 = some (.addi 9 0x6942)

/-! ### The step -/

/-- R101: where the bytes at `pc` decode to an instruction, the step is that instruction's execute
and commit part. -/
def Obligations.StepRunsDecodedInstruction : Prop :=
  ∀ (s : State) (bytes : List Byte) (i : Instr), s.Inv → s.RunsBytes bytes →
    decode bytes = .ok (i, []) → step s = exec i s

/-- R100: a step of a halted core changes nothing; in particular it records no hook call. That the
outcome `Idle` is a next state equal to the state is the model's form (log 15). -/
def Obligations.HaltedCoreIdles : Prop := ∀ s : State, s.halt = true → step s = .next s

/-- R10: a step has no outcome but the next state (R100's `Idle` among them) and a memory fault. -/
def Obligations.StepIsNeverRefused : Prop :=
  ∀ s : State, (∃ t, step s = .next t) ∨ (∃ k a, step s = .fault (.memoryFault k a))

/-- R101, R70, R75: the step through the instruction syntax is the step of the spec's pseudocode
through the decoder's record, in every state. -/
def Obligations.StepIsTheRecordStep : Prop := ∀ s : State, step s = stepByRecord s

/-- The model's own interface for placing an instruction (log 13): after an instruction word is
placed, the very next step runs exactly what the decoder reads from it. -/
def Obligations.PlacedWordRunsNext : Prop :=
  ∀ (s : State) (nbits w : Nat) (i : Instr), s.Inv → decodeTableWord nbits w = some i →
    step (s.withFetchWord nbits w) = exec i (s.withFetchWord nbits w)

/-- R28: every step keeps the canonical form of memory and its capacity. -/
def Obligations.StepKeepsMemoryWellFormed : Prop :=
  ∀ s t : State, s.Inv → step s = .next t → t.Inv ∧ t.mem.size = s.mem.size

/-- R28: memories in canonical form with the same capacity and the same bytes are equal data. -/
def Obligations.EqualBytesEqualMemory : Prop :=
  ∀ m n : Memory, m.wf = true → n.wf = true → m.size = n.size → (∀ a, m.get a = n.get a) → m = n

/-! ### Faults -/

/-- R180, R183: a step reports a fault exactly when one of the four causes applies, and then the
first of them in the order of the step's work. -/
def Obligations.FaultsAreTheFirstCause : Prop :=
  ∀ s : State, s.Inv → ∀ k a, step s = .fault (.memoryFault k a) ↔ s.firstFault = some (k, a)

/-- R180: "There is no other exception": a step completes exactly when none of the causes
applies. -/
def Obligations.StepCompletesWithoutCause : Prop :=
  ∀ s : State, s.Inv → ((∃ t, step s = .next t) ↔ s.firstFault = none)

/-! ### Opcode group 0 -/

/-- R120 to R123, R186: each trap invokes the hook once with its kind and the view of the state at
the start of the step, sets `halt` exactly when the answer is `Halt`, goes on at `pc + 1` either
way, and changes nothing else. The contract is the spec's decision D10 (log 5); the list of answers
and the record of calls are the model's form of the hook (log 3). -/
def Obligations.TrapsInvokeTheHook : Prop :=
  ∀ s : State,
    let reply := s.hook.replies.headD s.hook.fallback
    let after (k : TrapKind) (answer : HookAnswer) : State :=
      { s with
        pc := s.pc + 1
        halt := if answer = .halt then true else s.halt
        hook :=
          { replies := s.hook.replies.tail
            fallback := s.hook.fallback
            calls := { kind := k, view := s.view } :: s.hook.calls } }
    (exec .trapNull s = .next (after .null reply.null) ∧
      exec .trapTrace s = .next (after .trace reply.trace) ∧
      exec .trapSys s = .next (after .syscall reply.syscall) ∧
      exec .trapExt s = .next (after .extension reply.extension)) ∧
    (s.RunsBytes [0x00] → step s = exec .trapNull s) ∧
    (s.RunsBytes [0x01] → step s = exec .trapTrace s) ∧
    (s.RunsBytes [0x02] → step s = exec .trapSys s) ∧
    (s.RunsBytes [0x03] → step s = exec .trapExt s)

/-- R124, R125, R132, R133: the moves between `acc` and `sr` and between `acc` and `lr`; `mtsr` is the
only instruction that writes `sr`. -/
def Obligations.MovesOfShiftAndLinkRegister : Prop :=
  ∀ s : State,
    (exec .mfsr s = .next { s with acc := s.sr, pc := s.pc + 1 } ∧
      exec .mtsr s = .next { s with sr := s.acc, pc := s.pc + 1 } ∧
      exec .mflr s = .next { s with acc := s.lr, pc := s.pc + 1 } ∧
      exec .mtlr s = .next { s with lr := s.acc, pc := s.pc + 1 }) ∧
    (s.RunsBytes [0x04] → step s = exec .mfsr s) ∧
    (s.RunsBytes [0x05] → step s = exec .mtsr s) ∧
    (s.RunsBytes [0x0C] → step s = exec .mflr s) ∧
    (s.RunsBytes [0x0D] → step s = exec .mtlr s) ∧
    ∀ (i : Instr) (t : State), exec i s = .next t → t.sr ≠ s.sr → i = .mtsr

/-- R126, R127, R108: the shifts as arithmetic. The amount modulo 64 is the spec's decision D6 and
the logical right shift its decision D7 (log 9). -/
def Obligations.ShiftsByAccModulo64 : Prop :=
  ∀ s : State,
    exec .shl s =
        .next { s with
          acc := BitVec.ofNat 64 (s.sr.toNat * 2 ^ (s.acc.toNat % 64)), pc := s.pc + 1 } ∧
      exec .shr s =
        .next { s with
          acc := BitVec.ofNat 64 (s.sr.toNat / 2 ^ (s.acc.toNat % 64)), pc := s.pc + 1 } ∧
      (s.RunsBytes [0x06] → step s = exec .shl s) ∧
      (s.RunsBytes [0x07] → step s = exec .shr s)

/-- R128, R129, R130: indirect jump, indirect call and return. The target is not checked; where it
is outside memory the next step's fetch faults. -/
def Obligations.IndirectControlTransfers : Prop :=
  ∀ s : State,
    (exec .jr s = .next { s with pc := s.acc } ∧
      exec .callr s = .next { s with lr := s.pc + 1, pc := s.acc } ∧
      exec .ret s = .next { s with pc := s.lr }) ∧
    (s.RunsBytes [0x08] → step s = exec .jr s) ∧
    (s.RunsBytes [0x09] → step s = exec .callr s) ∧
    (s.RunsBytes [0x0A] → step s = exec .ret s) ∧
    (s.halt = false → s.mem.size ≤ s.acc.toNat →
      step { s with pc := s.acc } = .fault (.memoryFault .fetch s.acc))

/-- R131, R134: `nop` only advances `pc`; `lpc` gives the address of the following instruction. -/
def Obligations.NopAndLoadPc : Prop :=
  ∀ s : State,
    exec .nop s = .next { s with pc := s.pc + 1 } ∧
      exec .lpc s = .next { s with acc := s.pc + 1, pc := s.pc + 1 } ∧
      (s.RunsBytes [0x0B] → step s = exec .nop s) ∧
      (s.RunsBytes [0x0E] → step s = exec .lpc s)

/-- R135 with R103, which the spec marks derived (and decision D11, log 10): `halt` sets the flag,
`pc` still advances, and every later step idles. -/
def Obligations.HaltStopsTheCore : Prop :=
  ∀ s : State,
    exec .halt s = .next { s with halt := true, pc := s.pc + 1 } ∧
      (s.RunsBytes [0x0F] → step s = exec .halt s) ∧
      step { s with halt := true, pc := s.pc + 1 } = .next { s with halt := true, pc := s.pc + 1 }

/-! ### Groups 1 to 7 -/

/-- R140: `test` writes all ones where the selector's bit for the class of `acc` is set, else 0. -/
def Obligations.TestWritesMask : Prop :=
  ∀ (s : State) (c : Selector),
    exec (.test c) s =
        .next { s with acc := if selects c s.acc then BitVec.allOnes 64 else 0, pc := s.pc + 1 } ∧
      (s.RunsBytes [BitVec.ofNat 8 (0x10 + c.toNat)] → step s = exec (.test c) s)

/-- R145, R147, R148, R149, R150: the instructions that combine `acc` with a general register. -/
def Obligations.RegisterOperationsWriteAcc : Prop :=
  ∀ (s : State) (r : Reg),
    (exec (.mf r) s = .next { s with acc := s.readGpr r, pc := s.pc + 1 } ∧
      exec (.and r) s = .next { s with acc := s.acc &&& s.readGpr r, pc := s.pc + 1 } ∧
      exec (.or r) s = .next { s with acc := s.acc ||| s.readGpr r, pc := s.pc + 1 } ∧
      exec (.xor r) s = .next { s with acc := s.acc ^^^ s.readGpr r, pc := s.pc + 1 } ∧
      exec (.add r) s =
        .next { s with
          acc := BitVec.ofNat 64 ((s.acc.toNat + (s.readGpr r).toNat) % 2 ^ 64)
          pc := s.pc + 1 }) ∧
    (s.RunsBytes [BitVec.ofNat 8 (0x20 + r.val)] → step s = exec (.mf r) s) ∧
    (s.RunsBytes [BitVec.ofNat 8 (0x40 + r.val)] → step s = exec (.and r) s) ∧
    (s.RunsBytes [BitVec.ofNat 8 (0x50 + r.val)] → step s = exec (.or r) s) ∧
    (s.RunsBytes [BitVec.ofNat 8 (0x60 + r.val)] → step s = exec (.xor r) s) ∧
    (s.RunsBytes [BitVec.ofNat 8 (0x70 + r.val)] → step s = exec (.add r) s)

/-- R146: `mt` writes the named general register, any of the sixteen, and nothing else but `pc`; it is
the only instruction that writes a general register. -/
def Obligations.MoveToRegisterWritesOne : Prop :=
  ∀ (s : State) (r : Reg),
    (∃ t : State, exec (.mt r) s = .next t ∧ t.readGpr r = s.acc ∧
      (∀ q, q ≠ r → t.readGpr q = s.readGpr q) ∧
      { t with gpr := s.gpr } = { s with pc := s.pc + 1 }) ∧
    (s.RunsBytes [BitVec.ofNat 8 (0x30 + r.val)] → step s = exec (.mt r) s) ∧
    ∀ (i : Instr) (t : State), exec i s = .next t → t.readGpr r ≠ s.readGpr r → i = .mt r

/-! ### Groups 8 and 9 -/

/-- R155: the conditional relative branch, for every displacement the encoding admits; nothing but
`pc` changes. -/
def Obligations.BranchIsRelativeToNext : Prop :=
  ∀ (s : State) (c : Selector) (d : Disp), Disp.Encodable d →
    exec (.b c d) s =
        .next { s with
          pc := if selects c s.acc then s.pc + 3 + BitVec.ofInt 64 d else s.pc + 3 } ∧
      (s.Inv →
        s.RunsBytes [BitVec.ofNat 8 (0x80 + c.toNat), BitVec.ofInt 8 d, BitVec.ofInt 8 (d / 256)] →
        step s = exec (.b c d) s)

/-- R156: the conditional relative call writes `lr` only when it is taken, and then with the address
of the following instruction. -/
def Obligations.CallLinksOnlyWhenTaken : Prop :=
  ∀ (s : State) (c : Selector) (d : Disp), Disp.Encodable d →
    (selects c s.acc = true →
        exec (.call c d) s =
          .next { s with lr := s.pc + 3, pc := s.pc + 3 + BitVec.ofInt 64 d }) ∧
      (selects c s.acc = false → exec (.call c d) s = .next { s with pc := s.pc + 3 }) ∧
      (s.Inv →
        s.RunsBytes [BitVec.ofNat 8 (0x90 + c.toNat), BitVec.ofInt 8 d, BitVec.ofInt 8 (d / 256)] →
        step s = exec (.call c d) s)

/-! ### Groups A and B -/

/-- R159: the effective address is the base plus the signed offset, modulo 2^64. -/
def Obligations.EffectiveAddressIsBasePlusOffset : Prop :=
  ∀ (s : State) (r : Reg) (d : Disp), Disp.Encodable d →
    ((s.effectiveAddress r d).toNat : Int) = (((s.readGpr r).toNat : Int) + d) % 2 ^ 64

/-- R160 (with R44): a load in bounds writes `acc` with the eight bytes of the aligned block, rotated
so that the byte at the effective address is the least significant, and changes nothing else but
`pc`; one out of bounds faults with the unrotated index. -/
def Obligations.LoadReadsRotatedBlock : Prop :=
  ∀ (s : State) (r : Reg) (d : Disp),
    ((s.effectiveAddress r d).toNat < s.mem.size →
      ∃ t : State, exec (.ld r d) s = .next t ∧
        (∀ i, i < 8 →
          t.acc.extractLsb' (8 * i) 8 =
            s.mem.get ((s.effectiveAddress r d).toNat / 8 * 8 +
              ((s.effectiveAddress r d).toNat % 8 + i) % 8)) ∧
        { t with acc := s.acc } = { s with pc := s.pc + 3 }) ∧
    (s.mem.size ≤ (s.effectiveAddress r d).toNat →
      exec (.ld r d) s = .fault (.memoryFault .load (s.effectiveAddress r d))) ∧
    (s.Inv → Disp.Encodable d →
      s.RunsBytes [BitVec.ofNat 8 (0xA0 + r.val), BitVec.ofInt 8 d, BitVec.ofInt 8 (d / 256)] →
      step s = exec (.ld r d) s)

/-- R161 (with R45): a store in bounds puts the eight bytes of `acc` at the rotated positions of the
aligned block of the effective address; no byte outside the block changes, and nothing else but
`pc`. One out of bounds faults with the unrotated index. -/
def Obligations.StoreWritesRotatedBlock : Prop :=
  ∀ (s : State) (r : Reg) (d : Disp), s.Inv →
    ((s.effectiveAddress r d).toNat < s.mem.size →
      ∃ t : State, exec (.st r d) s = .next t ∧
        (∀ i, i < 8 →
          t.mem.get ((s.effectiveAddress r d).toNat / 8 * 8 +
              ((s.effectiveAddress r d).toNat % 8 + i) % 8) =
            s.acc.extractLsb' (8 * i) 8) ∧
        (∀ a, a / 8 ≠ (s.effectiveAddress r d).toNat / 8 → t.mem.get a = s.mem.get a) ∧
        t.mem.size = s.mem.size ∧
        { t with mem := s.mem } = { s with pc := s.pc + 3 }) ∧
    (s.mem.size ≤ (s.effectiveAddress r d).toNat →
      exec (.st r d) s = .fault (.memoryFault .store (s.effectiveAddress r d))) ∧
    (Disp.Encodable d →
      s.RunsBytes [BitVec.ofNat 8 (0xB0 + r.val), BitVec.ofInt 8 d, BitVec.ofInt 8 (d / 256)] →
      step s = exec (.st r d) s)

/-- R47: a word access is in bounds exactly when its index is below `memsize`, which is when its whole
block is; one out of bounds raises the fault of its kind with the index, however large that is, and
writes nothing. Faulting at all is the spec's decision D1 (log 7). -/
def Obligations.WordAccessBounds : Prop :=
  ∀ (m : Memory) (idx v : Word), m.wf = true →
    (idx.toNat < m.size ↔ idx.toNat / 8 * 8 + 7 ≤ m.size - 1) ∧
      (idx.toNat < m.size → (∃ w, memRead m idx = .ok w) ∧ ∃ m', memWrite m idx v = .ok m') ∧
      (m.size ≤ idx.toNat →
        memRead m idx = .error (.memoryFault .load idx) ∧
          memWrite m idx v = .error (.memoryFault .store idx))

/-- R46, which the spec marks derived: a word read is the block's little-endian value rotated right
by `8·off` bits. -/
def Obligations.WordReadIsRotatedBlock : Prop :=
  ∀ (m : Memory) (idx v block : Word), m.wf = true →
    memRead m idx = .ok v → memRead m (idx &&& ~~~7#64) = .ok block →
    v = block.rotateRight (8 * (idx.toNat % 8))

/-- R46 (b), which the spec marks derived, for every offset: a word read back after a write is the
word written, and a word of another block is what it was. -/
def Obligations.WordReadAfterWrite : Prop :=
  ∀ (m m' : Memory) (idx v : Word), m.wf = true → memWrite m idx v = .ok m' →
    memRead m' idx = .ok v ∧
      ∀ other : Word, other.toNat / 8 ≠ idx.toNat / 8 → memRead m' other = memRead m other

/-- R58, which the spec marks derived: what a store wrote is what the next fetch of any of its bytes
reads. -/
def Obligations.StoreIsSeenByFetch : Prop :=
  ∀ (s t : State) (r : Reg) (d : Disp), s.Inv → exec (.st r d) s = .next t →
    ∀ i, i < 8 → ∀ a : Word,
      a.toNat = (s.effectiveAddress r d).toNat / 8 * 8 +
        ((s.effectiveAddress r d).toNat % 8 + i) % 8 →
      fetchByte t.mem a = .ok (s.acc.extractLsb' (8 * i) 8)

/-! ### Groups C to F -/

/-- R165 to R168: the operations with a pattern-extended immediate; only `acc` and `pc` change. -/
def Obligations.ImmediateOperationsWriteAcc : Prop :=
  ∀ (s : State) (a : Pattern) (i : Literal),
    (exec (.andi a i) s = .next { s with acc := s.acc &&& ximm a i, pc := s.pc + 3 } ∧
      exec (.ori a i) s = .next { s with acc := s.acc ||| ximm a i, pc := s.pc + 3 } ∧
      exec (.xori a i) s = .next { s with acc := s.acc ^^^ ximm a i, pc := s.pc + 3 } ∧
      exec (.addi a i) s =
        .next { s with
          acc := BitVec.ofNat 64 ((s.acc.toNat + (ximm a i).toNat) % 2 ^ 64)
          pc := s.pc + 3 }) ∧
    (s.Inv →
      (s.RunsBytes [BitVec.ofNat 8 (0xC0 + a.toNat), i.setWidth 8, (i >>> 8).setWidth 8] →
        step s = exec (.andi a i) s) ∧
      (s.RunsBytes [BitVec.ofNat 8 (0xD0 + a.toNat), i.setWidth 8, (i >>> 8).setWidth 8] →
        step s = exec (.ori a i) s) ∧
      (s.RunsBytes [BitVec.ofNat 8 (0xE0 + a.toNat), i.setWidth 8, (i >>> 8).setWidth 8] →
        step s = exec (.xori a i) s) ∧
      (s.RunsBytes [BitVec.ofNat 8 (0xF0 + a.toNat), i.setWidth 8, (i >>> 8).setWidth 8] →
        step s = exec (.addi a i) s))

/-- R78, which the spec marks derived from R77: the lanes of the pattern-extended immediate. -/
def Obligations.PatternExtensionByLanes : Prop :=
  ∀ (a : Pattern) (i : Literal) (j : Nat), j < 4 →
    lane (ximm a i) j =
      let k := 2 * (a.getLsbD 3).toNat + (a.getLsbD 2).toNat
      if j = k then i
      else if j / 2 = k / 2 then laneFill (a.getLsbD 0)
      else laneFill (a.getLsbD 1)

/-! ### Immediates and conditions -/

/-- R76: the sign-extended immediate has the literal's signed value; that of a displacement is the
displacement. -/
def Obligations.SignExtensionKeepsValue : Prop :=
  (∀ imm : Literal, (simm imm).toInt = imm.toInt) ∧
    (∀ imm : Literal, ∀ j, 16 ≤ j → j < 64 → (simm imm).getLsbD j = imm.getLsbD 15) ∧
    (∀ d : Disp, Disp.Encodable d → simmOfDisp d = BitVec.ofInt 64 d)

/-- R80: the four categories as classes of the signed value, with the number `2*sign + rest`. -/
def Obligations.CategoriesPartitionValues : Prop :=
  ∀ v : Word,
    (category v = .zero ↔ v.toInt = 0) ∧ (category v = .positive ↔ 0 < v.toInt) ∧
      (category v = .minimum ↔ v.toInt = -2 ^ 63) ∧
      (category v = .negative ↔ v.toInt < 0 ∧ v.toInt ≠ -2 ^ 63) ∧
      (category v).number =
        2 * (if v.toNat < 2 ^ 63 then 0 else 1) + (if v.toNat % 2 ^ 63 = 0 then 0 else 1)

/-- R82, which the spec marks derived: the common selectors as comparisons of the signed value, and
the complement. -/
def Obligations.SelectorsCompareSigned : Prop :=
  ∀ v : Word,
    condHolds 0x0 v = false ∧ condHolds 0xF v = true ∧ (condHolds 0x1 v = true ↔ v = 0) ∧
      (condHolds 0xE v = true ↔ v ≠ 0) ∧ (condHolds 0x2 v = true ↔ 0 < v.toInt) ∧
      (condHolds 0x3 v = true ↔ 0 ≤ v.toInt) ∧ (condHolds 0xC v = true ↔ v.toInt < 0) ∧
      (condHolds 0xD v = true ↔ v.toInt ≤ 0) ∧ (condHolds 0x4 v = true ↔ v.toInt = -2 ^ 63) ∧
      (condHolds 0x8 v = true ↔ v.toInt < 0 ∧ v.toInt ≠ -2 ^ 63) ∧
      ∀ c : Selector, condHolds (c ^^^ 0xF) v = !condHolds c v

/-! ### Which instruction writes what -/

/-- R23: `lr` is written by `callr`, by `mtlr`, and by `call` only when its condition holds. -/
def Obligations.LinkRegisterWriters : Prop :=
  ∀ (i : Instr) (s t : State), exec i s = .next t → t.lr ≠ s.lr →
    (i = .callr ∧ t.lr = s.pc + 1) ∨ (i = .mtlr ∧ t.lr = s.acc) ∨
      ∃ c d, i = .call c d ∧ selects c s.acc = true ∧ t.lr = s.pc + 3

/-- R22: `acc` is written only by the instructions the rule lists. -/
def Obligations.AccumulatorWriters : Prop :=
  ∀ (i : Instr) (s t : State), exec i s = .next t → t.acc ≠ s.acc → writesAcc i = true

/-- R26: `halt` is set only by `halt` and by a trap whose hook answers `Halt`, and no instruction
clears it. -/
def Obligations.HaltFlagWriters : Prop :=
  ∀ (i : Instr) (s t : State), exec i s = .next t → t.halt ≠ s.halt →
    t.halt = true ∧
      (i = .halt ∨ ∃ k, trapKindOf i = some k ∧ s.hookAnswer k = .halt)

/-- R28, R45: only `st` writes memory, and only in the aligned block of its effective address. -/
def Obligations.OnlyStoreWritesMemory : Prop :=
  ∀ (i : Instr) (s t : State) (a : Nat), s.Inv → exec i s = .next t →
    t.mem.get a ≠ s.mem.get a →
    ∃ r d, i = .st r d ∧ a / 8 = (s.effectiveAddress r d).toNat / 8

/-- R186: a trap presents itself to the hook exactly once; no other instruction invokes it. -/
def Obligations.HookInvokedOncePerTrap : Prop :=
  ∀ (i : Instr) (s t : State), exec i s = .next t →
    t.hook.calls =
      match trapKindOf i with
      | some k => { kind := k, view := s.view } :: s.hook.calls
      | none => s.hook.calls

/-- R101, R21: an instruction that transfers no control goes on at `pc + length`. -/
def Obligations.OthersGoOnAtNextInstruction : Prop :=
  ∀ (i : Instr) (s t : State), transfersControl i = false → exec i s = .next t →
    t.pc = s.pc + BitVec.ofNat 64 i.length

/-! ### The trap hook as a free input -/

/-- R105: the hook's answers matter to the four traps only. -/
def Obligations.HookMattersToTrapsOnly : Prop :=
  ∀ (i : Instr) (s : State) (q : List HookReply) (f : HookReply), trapKindOf i = none →
    exec i (s.withHook q f) = outcomeWithHook q f (exec i s)

/-- R186, the model's form of it (log 3): whatever function the hook is, of the kind, the view and
what was presented before, some list of answers gives the same run. -/
def Obligations.AnyHookFunctionIsAListOfReplies : Prop :=
  ∀ (H : HookFunction) (n : Nat) (s : State), ∃ q : List HookReply, ∀ f : HookReply,
    SameOutcome (Sys2Proof.core.run n (s.withHook q f)) (runUnderHook H n s)

/-- R186, the model's form of it (log 3): every list of answers is given by some hook function. -/
def Obligations.AnyListOfRepliesIsAHookFunction : Prop :=
  ∀ (q : List HookReply) (f : HookReply) (s : State), ∃ H : HookFunction, ∀ n : Nat,
    SameOutcome (Sys2Proof.core.run n (s.withHook q f)) (runUnderHook H n s)

/-! ### The Step Driver -/

/-- R104 (a), R197: a halted run is final, however long the driver goes on. -/
def Obligations.HaltedRunIsFinal : Prop :=
  ∀ (n : Nat) (s t : State), drive n s = .halted t →
    t.halt = true ∧ ∀ m, n ≤ m → drive m s = .halted t

/-- R104 (b), R181: a faulted run stands in the state before the faulting step, which is not halted
and would fault again. -/
def Obligations.FaultedRunIsNotFinal : Prop :=
  ∀ (n : Nat) (s t : State) (f : Fault), drive n s = .faulted t f →
    t.halt = false ∧ step t = .fault f ∧ ∀ m, n ≤ m → drive m s = .faulted t f

/-- R104: the driver that stops at `halt` and the host's plain run of steps reach the same state. -/
def Obligations.DriverAgreesWithPlainRun : Prop :=
  ∀ (n : Nat) (s t : State),
    Sys2Proof.core.run n s = .next t ↔ drive n s = .halted t ∨ drive n s = .running t

/-- R155 and R104: a branch of displacement −3 whose selector holds for `acc`, such as
`b $zpmn, -3`, runs for ever at any address and changes nothing. -/
def Obligations.SelfBranchNeverEnds : Prop :=
  ∀ (s : State) (c : Selector), s.Inv → selects c s.acc = true →
    s.RunsBytes [BitVec.ofNat 8 (0x80 + c.toNat), 0xFD, 0xFF] → ∀ n, drive n s = .running s
end

