-- ==== Sys2Proof/Laws/Memory.lean ====
section
/-! SUPPORT. The laws of memory: reading after writing, the canonical form kept by every operation
on memory, and one lemma for each shared operation that says all it can do. -/

namespace Sys2Proof.Machine

open Sys2Proof.Config

/-! ### Cells -/

theorem cellsWf_cons {size lo a : Nat} {v : Byte} {rest : List Host.Cell} :
    cellsWf size lo ((a, v) :: rest) = true ↔
      lo ≤ a ∧ a < size ∧ v ≠ unlistedByte ∧ cellsWf size (a + 1) rest = true := by
  simp [cellsWf, and_assoc]

/-- The canonical form says less when the first address may be smaller. -/
theorem cellsWf_mono {size lo lo' : Nat} {cells : List Host.Cell} (h : lo' ≤ lo)
    (hw : cellsWf size lo cells = true) : cellsWf size lo' cells = true := by
  cases cells with
  | nil => rfl
  | cons c rest =>
    obtain ⟨h1, h2⟩ := cellsWf_cons.mp hw
    exact cellsWf_cons.mpr ⟨h.trans h1, h2⟩

/-- An address below the first one is not listed. -/
theorem getCell_of_lt {size lo a : Nat} {cells : List Host.Cell} (h : a < lo)
    (hw : cellsWf size lo cells = true) : getCell cells a = unlistedByte := by
  induction cells generalizing lo with
  | nil => rfl
  | cons c rest ih =>
    obtain ⟨h1, -, -, h4⟩ := cellsWf_cons.mp hw
    have hne : a ≠ c.1 := by omega
    simpa [getCell, hne] using ih (lo := c.1 + 1) (by omega) h4

/-- Setting a byte below `size` keeps the canonical form. -/
theorem setCell_wf {size lo a : Nat} {v : Byte} {cells : List Host.Cell} (hlo : lo ≤ a)
    (ha : a < size) (hw : cellsWf size lo cells = true) :
    cellsWf size lo (setCell cells a v) = true := by
  induction cells generalizing lo with
  | nil =>
    by_cases hv : v = unlistedByte
    · simp [setCell, hv, cellsWf]
    · simp [setCell, hv, cellsWf, hlo, ha]
  | cons c rest ih =>
    obtain ⟨h1, h2, h3, h4⟩ := cellsWf_cons.mp hw
    simp only [setCell]
    split_ifs with hlt hv heq hv
    · exact hw
    · exact cellsWf_cons.mpr ⟨hlo, ha, hv, cellsWf_cons.mpr ⟨hlt, h2, h3, h4⟩⟩
    · exact cellsWf_mono (by omega) h4
    · exact cellsWf_cons.mpr ⟨h1, h2, hv, h4⟩
    · exact cellsWf_cons.mpr ⟨h1, h2, h3, ih (by omega) h4⟩

/-- A byte reads as it was set, and no other byte changes. -/
theorem getCell_setCell {size lo a b : Nat} {v : Byte} {cells : List Host.Cell}
    (hw : cellsWf size lo cells = true) :
    getCell (setCell cells a v) b = if b = a then v else getCell cells b := by
  induction cells generalizing lo with
  | nil =>
    by_cases hv : v = unlistedByte <;> by_cases hb : b = a <;> simp [setCell, getCell, hv, hb]
  | cons c rest ih =>
    obtain ⟨-, -, -, h4⟩ := cellsWf_cons.mp hw
    have below : ∀ x, x ≤ c.1 → getCell rest x = unlistedByte := fun x hx =>
      getCell_of_lt (Nat.lt_succ_of_le hx) h4
    have ih := ih h4
    simp only [setCell]
    by_cases hlt : a < c.1
    · by_cases hv : v = unlistedByte
      · by_cases hb : b = a
        · subst hb
          simp [getCell, hlt, hv, hlt.ne, below b hlt.le]
        · simp [hlt, hv, hb]
      · by_cases hb : b = a <;> simp [getCell, hlt, hv, hb]
    · by_cases heq : a = c.1
      · by_cases hv : v = unlistedByte <;> by_cases hb : b = c.1 <;>
          simp [getCell, heq, hv, hb, below c.1 le_rfl]
      · by_cases hb : b = c.1
        · have hba : b ≠ a := fun h => heq (h.symm.trans hb)
          simp [getCell, hlt, heq, hb, hb ▸ hba]
        · simp [getCell, hlt, heq, hb, ih]

/-! ### Memory -/

theorem Memory.wf_iff {m : Memory} :
    m.wf = true ↔ sizeWf m.size = true ∧ cellsWf m.size 0 m.cells = true := by
  simp [Memory.wf]

theorem sizeWf_iff {n : Nat} :
    sizeWf n = true ↔ 0 < n ∧ n % wordBytes = 0 ∧ n ≤ maxMemsize := by
  simp [sizeWf, and_assoc]

@[simp] theorem Memory.set_size (m : Memory) (a : Nat) (v : Byte) : (m.set a v).size = m.size := rfl

/-- `M[a] <- v` keeps the canonical form (R28). -/
theorem Memory.set_wf {m : Memory} {a : Nat} {v : Byte} (ha : a < m.size) (hw : m.wf = true) :
    (m.set a v).wf = true := by
  obtain ⟨h1, h2⟩ := Memory.wf_iff.mp hw
  exact Memory.wf_iff.mpr ⟨h1, setCell_wf (Nat.zero_le a) ha h2⟩

/-- `M[a] <- v` writes that byte and no other (R28). -/
theorem Memory.get_set {m : Memory} {a b : Nat} {v : Byte} (hw : m.wf = true) :
    (m.set a v).get b = if b = a then v else m.get b :=
  getCell_setCell (Memory.wf_iff.mp hw).2

/-- No byte at or above the capacity is listed. -/
theorem Memory.get_of_size_le {m : Memory} {a : Nat} (hw : m.wf = true) (ha : m.size ≤ a) :
    m.get a = unlistedByte := by
  have key : ∀ (cells : List Host.Cell) (lo : Nat), cellsWf m.size lo cells = true →
      getCell cells a = unlistedByte := by
    intro cells
    induction cells with
    | nil => intro _ _; rfl
    | cons c rest ih =>
      intro lo h
      obtain ⟨-, h2, -, h4⟩ := cellsWf_cons.mp h
      have hne : a ≠ c.1 := by omega
      simpa [getCell, hne] using ih _ h4
  exact key _ 0 (Memory.wf_iff.mp hw).2

@[simp] theorem Memory.setBytes_size (m : Memory) (a : Nat) (bs : List Byte) :
    (m.setBytes a bs).size = m.size := by
  induction bs generalizing m a with
  | nil => rfl
  | cons v rest ih => simp [Memory.setBytes, ih]

/-- Storing consecutive bytes keeps the canonical form. -/
theorem Memory.setBytes_wf {m : Memory} {a : Nat} {bs : List Byte} (h : a + bs.length ≤ m.size)
    (hw : m.wf = true) : (m.setBytes a bs).wf = true := by
  induction bs generalizing m a with
  | nil => exact hw
  | cons v rest ih =>
    simp only [List.length_cons] at h
    exact ih (by simp; omega) (Memory.set_wf (by omega) hw)

/-- Storing consecutive bytes writes those bytes and no other. -/
theorem Memory.get_setBytes {m : Memory} {a b : Nat} {bs : List Byte}
    (h : a + bs.length ≤ m.size) (hw : m.wf = true) :
    (m.setBytes a bs).get b =
      if a ≤ b ∧ b < a + bs.length then bs.getD (b - a) unlistedByte else m.get b := by
  induction bs generalizing m a with
  | nil =>
    have hn : ¬(a ≤ b ∧ b < a + ([] : List Byte).length) := by simp
    rw [if_neg hn, Memory.setBytes]
  | cons v rest ih =>
    simp only [List.length_cons] at h
    rw [Memory.setBytes, ih (by simp; omega) (Memory.set_wf (by omega) hw), Memory.get_set hw]
    simp only [List.length_cons]
    by_cases hb : b = a
    · subst hb
      simp
    · by_cases hr : a + 1 ≤ b ∧ b < a + 1 + rest.length
      · have hr' : a ≤ b ∧ b < a + (rest.length + 1) := by omega
        have hidx : b - a = (b - (a + 1)) + 1 := by omega
        rw [if_pos hr, if_pos hr', hidx, List.getD_cons_succ]
      · have hr' : ¬(a ≤ b ∧ b < a + (rest.length + 1)) := by omega
        rw [if_neg hr, if_neg hr', if_neg hb]

/-! ### The aligned block -/

/-- Every byte of the block of an index that is in bounds is in bounds (R47). -/
theorem lanePos_lt_size {m : Memory} {idx : Word} (i : Nat) (hw : m.wf = true)
    (h : idx.toNat < m.size) : lanePos idx i < m.size := by
  obtain ⟨-, h8, -⟩ := sizeWf_iff.mp (Memory.wf_iff.mp hw).1
  simp only [lanePos, blockBase, blockOffset, wordBytes] at *
  omega

/-- Every lane lies in the aligned block of the index (R43). -/
theorem lanePos_div (idx : Word) (i : Nat) : lanePos idx i / 8 = idx.toNat / 8 := by
  simp only [lanePos, blockBase, blockOffset, wordBytes]
  omega

/-- The lane of byte 0 is the index itself (R44: "the byte at `idx` becomes the least-significant
byte of the result"). -/
theorem lanePos_zero (idx : Word) : lanePos idx 0 = idx.toNat := by
  simp only [lanePos, blockBase, blockOffset, wordBytes]
  omega

/-- The byte of the word that lies at position `a` of the block (R44, R45). -/
def laneOf (idx : Word) (a : Nat) : Nat := (a % 8 + 8 - idx.toNat % 8) % 8

/-- Lane and position determine each other inside the block. -/
theorem lanePos_eq_iff {idx : Word} {a i : Nat} (hi : i < 8) :
    lanePos idx i = a ↔ a / 8 = idx.toNat / 8 ∧ laneOf idx a = i := by
  simp only [lanePos, laneOf, blockBase, blockOffset, wordBytes]
  omega

/-! ### Bytes of a word -/

/-- Bit `j` of the word made of eight bytes is bit `j mod 8` of byte `j div 8` (R44, R48). -/
theorem getLsbD_wordOf (f : Nat → Byte) {j : Nat} (hj : j < 64) :
    (wordOf f).getLsbD j = (f (j / 8)).getLsbD (j % 8) := by
  have at_byte : ∀ k l, j / 8 = k → j % 8 = l →
      (f k).getLsbD l = (f (j / 8)).getLsbD (j % 8) := by
    rintro _ _ rfl rfl; rfl
  simp only [wordOf, BitVec.getLsbD_append]
  split_ifs <;> exact at_byte _ _ (by omega) (by omega)

theorem getLsbD_byteOf (v : Word) (i j : Nat) :
    (byteOf v i).getLsbD j = (decide (j < 8) && v.getLsbD (8 * i + j)) := by
  simp [byteOf]

/-- Byte `i` of the word made of eight bytes (R44). -/
theorem byteOf_wordOf (f : Nat → Byte) {i : Nat} (hi : i < 8) : byteOf (wordOf f) i = f i := by
  apply BitVec.eq_of_getLsbD_eq
  intro j hj
  have h1 : (8 * i + j) / 8 = i := by omega
  have h2 : (8 * i + j) % 8 = j := by omega
  rw [getLsbD_byteOf, getLsbD_wordOf f (by omega), h1, h2]
  simp [hj]

/-- A word is made of its eight bytes. -/
theorem wordOf_byteOf (v : Word) : wordOf (byteOf v) = v := by
  apply BitVec.eq_of_getLsbD_eq
  intro j hj
  have h1 : 8 * (j / 8) + j % 8 = j := by omega
  have h2 : j % 8 < 8 := by omega
  rw [getLsbD_wordOf _ hj, getLsbD_byteOf, h1]
  simp [h2]

/-- Words made of the same eight bytes are equal. -/
theorem wordOf_congr {f g : Nat → Byte} (h : ∀ i, i < 8 → f i = g i) : wordOf f = wordOf g := by
  simp [wordOf, h]

/-! ### The rotated word access -/

/-- The bytes stored by a list of lanes, in order. -/
theorem foldl_set_lanes {idx v : Word} (lanes : List Nat) {m : Memory} (hw : m.wf = true)
    (h : idx.toNat < m.size) (hl : ∀ i ∈ lanes, i < 8) :
    let m' := lanes.foldl (fun m' i => m'.set (lanePos idx i) (byteOf v i)) m
    m'.size = m.size ∧ m'.wf = true ∧
      ∀ a, m'.get a =
        if a / 8 = idx.toNat / 8 ∧ laneOf idx a ∈ lanes then byteOf v (laneOf idx a)
        else m.get a := by
  induction lanes generalizing m with
  | nil => simp [hw]
  | cons i rest ih =>
    have hi : i < 8 := hl i (by simp)
    have hw' := Memory.set_wf (v := byteOf v i) (lanePos_lt_size i hw h) hw
    obtain ⟨h1, h2, h3⟩ := ih hw' h fun k hk => hl k (by simp [hk])
    refine ⟨h1, h2, fun a => ?_⟩
    rw [List.foldl_cons, h3 a, Memory.get_set hw]
    have hpos : a = lanePos idx i ↔ a / 8 = idx.toNat / 8 ∧ laneOf idx a = i :=
      eq_comm.trans (lanePos_eq_iff hi)
    by_cases hb : a / 8 = idx.toNat / 8
    · by_cases hr : laneOf idx a ∈ rest
      · simp [hb, hr]
      · by_cases he : laneOf idx a = i
        · simp [hb, hpos, he]
        · simp [hb, hr, hpos, he]
    · simp [hb, hpos]

/-- What the rotated store does (R45): the capacity and the canonical form are kept, the eight bytes
of the aligned block hold the bytes of the word at the rotated positions, and no other byte
changes. -/
theorem Memory.setRotatedWord_spec {m : Memory} {idx v : Word} (hw : m.wf = true)
    (h : idx.toNat < m.size) :
    (m.setRotatedWord idx v).size = m.size ∧ (m.setRotatedWord idx v).wf = true ∧
      ∀ a, (m.setRotatedWord idx v).get a =
        if a / 8 = idx.toNat / 8 then byteOf v (laneOf idx a) else m.get a := by
  obtain ⟨h1, h2, h3⟩ :=
    foldl_set_lanes (v := v) [0, 1, 2, 3, 4, 5, 6, 7] hw h (by decide)
  refine ⟨h1, h2, fun a => ?_⟩
  have hmem : laneOf idx a ∈ [0, 1, 2, 3, 4, 5, 6, 7] := by
    have hlt : laneOf idx a < 8 := Nat.mod_lt _ (by decide)
    simp only [List.mem_cons, List.not_mem_nil, or_false]
    omega
  rw [Memory.setRotatedWord, h3 a]
  simp only [hmem, and_true]

@[simp] theorem Memory.setRotatedWord_size (m : Memory) (idx v : Word) :
    (m.setRotatedWord idx v).size = m.size := rfl

/-- All that `MemRead` can do (R44, R47). -/
theorem memRead_cases (m : Memory) (idx : Word) :
    (idx.toNat < m.size ∧ memRead m idx = .ok (m.rotatedWord idx)) ∨
      (m.size ≤ idx.toNat ∧ memRead m idx = .error (.memoryFault .load idx)) := by
  by_cases h : idx.toNat < m.size
  · exact .inl ⟨h, by simp [memRead, Memory.inBounds, h]⟩
  · exact .inr ⟨by omega, by simp [memRead, Memory.inBounds, h, raiseMemoryFault]⟩

/-- All that `MemWrite` can do (R45, R47). -/
theorem memWrite_cases (m : Memory) (idx v : Word) :
    (idx.toNat < m.size ∧ memWrite m idx v = .ok (m.setRotatedWord idx v)) ∨
      (m.size ≤ idx.toNat ∧ memWrite m idx v = .error (.memoryFault .store idx)) := by
  by_cases h : idx.toNat < m.size
  · exact .inl ⟨h, by simp [memWrite, Memory.inBounds, h]⟩
  · exact .inr ⟨by omega, by simp [memWrite, Memory.inBounds, h, raiseMemoryFault]⟩

/-- All that a memory write that succeeds can have done (R45, R47). -/
theorem memWrite_ok {m m' : Memory} {idx v : Word} (hw : m.wf = true)
    (h : memWrite m idx v = .ok m') :
    idx.toNat < m.size ∧ m'.size = m.size ∧ m'.wf = true ∧
      ∀ a, m'.get a = if a / 8 = idx.toNat / 8 then byteOf v (laneOf idx a) else m.get a := by
  rcases memWrite_cases m idx v with ⟨hb, he⟩ | ⟨-, he⟩ <;> rw [he] at h
  · cases h
    exact ⟨hb, Memory.setRotatedWord_spec hw hb⟩
  · cases h

/-! ### Fetch -/

/-- All that the byte fetch can do (R50). -/
theorem fetchByte_cases (m : Memory) (a : Word) :
    (a.toNat < m.size ∧ fetchByte m a = .ok (m.get a.toNat)) ∨
      (m.size ≤ a.toNat ∧ fetchByte m a = .error (.memoryFault .fetch a)) := by
  by_cases h : a.toNat < m.size
  · exact .inl ⟨h, by simp [fetchByte, Memory.inBounds, h]⟩
  · exact .inr ⟨by omega, by simp [fetchByte, Memory.inBounds, h, raiseMemoryFault]⟩

/-- All that the fetch of a format S instruction can do (R50, R101). -/
theorem fetchInstr_short {m : Memory} {pc : Word} (h0 : pc.toNat < m.size)
    (hs : isLongOpcode (m.get pc.toNat) = false) :
    fetchInstr m pc = .ok (instrOf (m.get pc.toNat) 0) := by
  simp [fetchInstr, fetchByte, Memory.inBounds, h0, hs]

/-- The fetch of a format L instruction whose three bytes are in bounds (R50, R101). -/
theorem fetchInstr_long {m : Memory} {pc : Word} (h0 : pc.toNat < m.size)
    (hl : isLongOpcode (m.get pc.toNat) = true) (h1 : (pc + 1).toNat < m.size)
    (h2 : (pc + 2).toNat < m.size) :
    fetchInstr m pc = .ok (instrOf (m.get pc.toNat)
      (literalOfBytes (m.get (pc + 1).toNat) (m.get (pc + 2).toNat))) := by
  have ok : ∀ a : Word, a.toNat < m.size → fetchByte m a = .ok (m.get a.toNat) := fun a h => by
    simp [fetchByte, Memory.inBounds, h]
  simp only [fetchInstr, ok _ h0, ok _ h1, ok _ h2, hl, if_true]

/-- The fetch that fails does so at the first byte of the instruction that is out of bounds (R50,
R183). -/
theorem fetchInstr_error {m : Memory} {pc : Word} {f : Fault} (h : fetchInstr m pc = .error f) :
    (m.size ≤ pc.toNat ∧ f = .memoryFault .fetch pc) ∨
      (pc.toNat < m.size ∧ isLongOpcode (m.get pc.toNat) = true ∧
        ((m.size ≤ (pc + 1).toNat ∧ f = .memoryFault .fetch (pc + 1)) ∨
          ((pc + 1).toNat < m.size ∧ m.size ≤ (pc + 2).toNat ∧
            f = .memoryFault .fetch (pc + 2)))) := by
  rcases fetchByte_cases m pc with ⟨hb0, he0⟩ | ⟨hb0, he0⟩
  · right
    by_cases hl : isLongOpcode (m.get pc.toNat) = true
    · refine ⟨hb0, hl, ?_⟩
      rcases fetchByte_cases m (pc + 1) with ⟨hb1, he1⟩ | ⟨hb1, he1⟩
      · rcases fetchByte_cases m (pc + 2) with ⟨hb2, he2⟩ | ⟨hb2, he2⟩
        · simp only [fetchInstr, he0, he1, he2, hl, if_true, reduceCtorEq] at h
        · simp only [fetchInstr, he0, he1, he2, hl, if_true, Except.error.injEq] at h
          exact .inr ⟨hb1, hb2, h.symm⟩
      · simp only [fetchInstr, he0, he1, hl, if_true, Except.error.injEq] at h
        exact .inl ⟨hb1, h.symm⟩
    · simp [fetchInstr, he0, hl] at h
  · simp only [fetchInstr, he0, Except.error.injEq] at h
    exact .inl ⟨hb0, h.symm⟩

end Sys2Proof.Machine
end

