-- ==== Sys2Proof/Laws/Boot.lean ====
section
/-! SUPPORT. What constructing a machine can do: reset with its arguments, and the requested size. -/

namespace Sys2Proof.Machine

open Sys2Proof.Config

/-- All that reset with its arguments can do (R210, R211): the machine with the image for an admitted
capacity, and a refusal that names the capacity for any other. -/
theorem State.init_cases (memsize : Nat) (image : List Byte) :
    (sizeWf memsize = true ∧ State.init memsize image =
        .ok { State.reset with mem := (Memory.zeroed memsize).setBytes 0 (image.take memsize) }) ∨
      (sizeWf memsize = false ∧ State.init memsize image = .error (.badMemsize memsize)) := by
  cases h : sizeWf memsize <;> simp [State.init, h]

/-- A machine that reset constructs has the capacity asked for, which is admitted, and a memory in
canonical form (R28, R211). -/
theorem State.init_ok {memsize : Nat} {image : List Byte} {s : State}
    (h : State.init memsize image = .ok s) :
    sizeWf memsize = true ∧ s.mem.size = memsize ∧ s.mem.wf = true := by
  rcases State.init_cases memsize image with ⟨hw, h'⟩ | ⟨-, h'⟩ <;> rw [h'] at h <;> cases h
  refine ⟨hw, by simp [Memory.zeroed], Memory.setBytes_wf ?_ (Memory.wf_iff.mpr ⟨hw, rfl⟩)⟩
  simp [Memory.zeroed]

/-- The capacity made of a request is admitted exactly when the request is (R211). -/
theorem sizeWf_memsizeOfRequest (requested : Nat) :
    sizeWf (memsizeOfRequest requested) = true ↔ 1 ≤ requested ∧ requested ≤ maxMemsize := by
  rw [sizeWf_iff]
  simp only [memsizeOfRequest, wordBytes, maxMemsize]
  omega

end Sys2Proof.Machine
end

