-- ==== Sys2Proof/Laws/Decode.lean ====
section
/-! SUPPORT. The fields of an encoded instruction read back (spec/30_encoding.md R71 to R74, R90),
and one lemma for each way `decode` can answer. -/

namespace Sys2Proof

@[simp] theorem opField_opcodeByte (op arg : Nibble) : opField (opcodeByte op arg) = op := by
  revert op arg; decide

@[simp] theorem argField_opcodeByte (op arg : Nibble) : argField (opcodeByte op arg) = arg := by
  revert op arg; decide

/-- An opcode byte is made of its two fields (R71). -/
theorem opcodeByte_fields (b0 : Byte) : opcodeByte (opField b0) (argField b0) = b0 := by
  revert b0; decide

/-- Format L is the upper half of the opcode bytes (R73). -/
theorem isLongOpcode_iff (b0 : Byte) : isLongOpcode b0 = true ↔ 128 ≤ b0.toNat := by
  revert b0; decide

@[simp] theorem isLongOpcode_opcodeByte (op arg : Nibble) :
    isLongOpcode (opcodeByte op arg) = op.getLsbD 3 := by
  simp [isLongOpcode]

/-- The two literal bytes of a format L instruction give the literal back (R74). -/
@[simp] theorem literalOfBytes_extract (imm : Literal) :
    literalOfBytes (imm.extractLsb' 0 8) (imm.extractLsb' 8 8) = imm := by
  apply BitVec.eq_of_getLsbD_eq
  intro j hj
  simp only [literalOfBytes, BitVec.getLsbD_append, BitVec.getLsbD_extractLsb']
  split_ifs with h
  · simp [h]
  · have h8 : 8 + (j - 8) = j := by omega
    have hlt : j - 8 < 8 := by omega
    simp [h8, hlt]

@[simp] theorem literalOfBytes_low (b1 b2 : Byte) : (literalOfBytes b1 b2).extractLsb' 0 8 = b1 := by
  apply BitVec.eq_of_getLsbD_eq
  intro j hj
  simp only [literalOfBytes, BitVec.getLsbD_append, BitVec.getLsbD_extractLsb']
  simp [hj]

@[simp] theorem literalOfBytes_high (b1 b2 : Byte) : (literalOfBytes b1 b2).extractLsb' 8 8 = b2 := by
  apply BitVec.eq_of_getLsbD_eq
  intro j hj
  simp only [literalOfBytes, BitVec.getLsbD_append, BitVec.getLsbD_extractLsb']
  simp [hj]

@[simp] theorem regOfArg_argOfReg (r : Reg) : regOfArg (argOfReg r) = r := by
  revert r; decide

@[simp] theorem argOfReg_regOfArg (arg : Nibble) : argOfReg (regOfArg arg) = arg := by
  revert arg; decide

/-- An encodable displacement survives the literal (R90). -/
theorem dispOfLiteral_literalOfDisp {d : Disp} (h : Disp.Encodable d) :
    dispOfLiteral (literalOfDisp d) = d := by
  obtain ⟨h1, h2⟩ := h
  simp only [dispOfLiteral, literalOfDisp, BitVec.toInt_ofInt]
  exact Int.bmod_eq_of_le (by omega) (by omega)

@[simp] theorem literalOfDisp_dispOfLiteral (imm : Literal) :
    literalOfDisp (dispOfLiteral imm) = imm := by
  simp [literalOfDisp, dispOfLiteral]

/-- The displacement of a literal can be encoded (R90). -/
theorem dispOfLiteral_encodable (imm : Literal) : Disp.Encodable (dispOfLiteral imm) := by
  have h1 := BitVec.le_toInt imm
  have h2 := BitVec.toInt_lt (x := imm)
  constructor <;> simp only [dispOfLiteral] <;> omega

/-- Decoding a format S instruction (R72). -/
theorem decode_short {b0 : Byte} (h : isLongOpcode b0 = false) (rest : List Byte) :
    decode (b0 :: rest) = .ok (instrOf b0 0, rest) := by
  simp [decode, h]

/-- Decoding a format L instruction (R72). -/
theorem decode_long {b0 : Byte} (h : isLongOpcode b0 = true) (b1 b2 : Byte) (rest : List Byte) :
    decode (b0 :: b1 :: b2 :: rest) = .ok (instrOf b0 (literalOfBytes b1 b2), rest) := by
  simp [decode, h]

end Sys2Proof
end

