-- ==== Sys2Proof/Laws/PerInstr.lean ====
section
/-! SUPPORT. The family of laws about every instruction as syntax: the encoding has the length of R73. -/

namespace Sys2Proof.Laws

/-- R73, R102: an instruction is encoded in as many bytes as its length says, 1 or 3. -/
def EncodedLength.Statement (i : Instr) : Prop := (encode i).length = i.length

theorem EncodedLength.trapNull : EncodedLength.Statement .trapNull := rfl
theorem EncodedLength.trapTrace : EncodedLength.Statement .trapTrace := rfl
theorem EncodedLength.trapSys : EncodedLength.Statement .trapSys := rfl
theorem EncodedLength.trapExt : EncodedLength.Statement .trapExt := rfl
theorem EncodedLength.mfsr : EncodedLength.Statement .mfsr := rfl
theorem EncodedLength.mtsr : EncodedLength.Statement .mtsr := rfl
theorem EncodedLength.shl : EncodedLength.Statement .shl := rfl
theorem EncodedLength.shr : EncodedLength.Statement .shr := rfl
theorem EncodedLength.jr : EncodedLength.Statement .jr := rfl
theorem EncodedLength.callr : EncodedLength.Statement .callr := rfl
theorem EncodedLength.ret : EncodedLength.Statement .ret := rfl
theorem EncodedLength.nop : EncodedLength.Statement .nop := rfl
theorem EncodedLength.mflr : EncodedLength.Statement .mflr := rfl
theorem EncodedLength.mtlr : EncodedLength.Statement .mtlr := rfl
theorem EncodedLength.lpc : EncodedLength.Statement .lpc := rfl
theorem EncodedLength.halt : EncodedLength.Statement .halt := rfl
theorem EncodedLength.test (c : Selector) : EncodedLength.Statement (.test c) := rfl
theorem EncodedLength.mf (r : Reg) : EncodedLength.Statement (.mf r) := rfl
theorem EncodedLength.mt (r : Reg) : EncodedLength.Statement (.mt r) := rfl
theorem EncodedLength.and (r : Reg) : EncodedLength.Statement (.and r) := rfl
theorem EncodedLength.or (r : Reg) : EncodedLength.Statement (.or r) := rfl
theorem EncodedLength.xor (r : Reg) : EncodedLength.Statement (.xor r) := rfl
theorem EncodedLength.add (r : Reg) : EncodedLength.Statement (.add r) := rfl
theorem EncodedLength.b (c : Selector) (d : Disp) : EncodedLength.Statement (.b c d) := rfl
theorem EncodedLength.call (c : Selector) (d : Disp) : EncodedLength.Statement (.call c d) := rfl
theorem EncodedLength.ld (r : Reg) (d : Disp) : EncodedLength.Statement (.ld r d) := rfl
theorem EncodedLength.st (r : Reg) (d : Disp) : EncodedLength.Statement (.st r d) := rfl
theorem EncodedLength.andi (a : Pattern) (i : Literal) : EncodedLength.Statement (.andi a i) := rfl
theorem EncodedLength.ori (a : Pattern) (i : Literal) : EncodedLength.Statement (.ori a i) := rfl
theorem EncodedLength.xori (a : Pattern) (i : Literal) : EncodedLength.Statement (.xori a i) := rfl
theorem EncodedLength.addi (a : Pattern) (i : Literal) : EncodedLength.Statement (.addi a i) := rfl

end Sys2Proof.Laws
end

