-- ==== Sys2Proof/Laws/State.lean ====
section
/-! SUPPORT. One lemma for each field of State under each named update (Machine/Ops.lean,
Machine/Boot.lean), so that no proof unfolds a record update. -/

namespace Sys2Proof.Machine

open Sys2Proof.Config

/-! ### `State.setAcc` -/

@[simp] theorem State.setAcc_pc (s : State) (v : Word) : (s.setAcc v).pc = s.pc := rfl
@[simp] theorem State.setAcc_acc (s : State) (v : Word) : (s.setAcc v).acc = v := rfl
@[simp] theorem State.setAcc_lr (s : State) (v : Word) : (s.setAcc v).lr = s.lr := rfl
@[simp] theorem State.setAcc_sr (s : State) (v : Word) : (s.setAcc v).sr = s.sr := rfl
@[simp] theorem State.setAcc_gpr (s : State) (v : Word) : (s.setAcc v).gpr = s.gpr := rfl
@[simp] theorem State.setAcc_halt (s : State) (v : Word) : (s.setAcc v).halt = s.halt := rfl
@[simp] theorem State.setAcc_mem (s : State) (v : Word) : (s.setAcc v).mem = s.mem := rfl
@[simp] theorem State.setAcc_hook (s : State) (v : Word) : (s.setAcc v).hook = s.hook := rfl

/-! ### `State.setLr` -/

@[simp] theorem State.setLr_pc (s : State) (v : Word) : (s.setLr v).pc = s.pc := rfl
@[simp] theorem State.setLr_acc (s : State) (v : Word) : (s.setLr v).acc = s.acc := rfl
@[simp] theorem State.setLr_lr (s : State) (v : Word) : (s.setLr v).lr = v := rfl
@[simp] theorem State.setLr_sr (s : State) (v : Word) : (s.setLr v).sr = s.sr := rfl
@[simp] theorem State.setLr_gpr (s : State) (v : Word) : (s.setLr v).gpr = s.gpr := rfl
@[simp] theorem State.setLr_halt (s : State) (v : Word) : (s.setLr v).halt = s.halt := rfl
@[simp] theorem State.setLr_mem (s : State) (v : Word) : (s.setLr v).mem = s.mem := rfl
@[simp] theorem State.setLr_hook (s : State) (v : Word) : (s.setLr v).hook = s.hook := rfl

/-! ### `State.setSr` -/

@[simp] theorem State.setSr_pc (s : State) (v : Word) : (s.setSr v).pc = s.pc := rfl
@[simp] theorem State.setSr_acc (s : State) (v : Word) : (s.setSr v).acc = s.acc := rfl
@[simp] theorem State.setSr_lr (s : State) (v : Word) : (s.setSr v).lr = s.lr := rfl
@[simp] theorem State.setSr_sr (s : State) (v : Word) : (s.setSr v).sr = v := rfl
@[simp] theorem State.setSr_gpr (s : State) (v : Word) : (s.setSr v).gpr = s.gpr := rfl
@[simp] theorem State.setSr_halt (s : State) (v : Word) : (s.setSr v).halt = s.halt := rfl
@[simp] theorem State.setSr_mem (s : State) (v : Word) : (s.setSr v).mem = s.mem := rfl
@[simp] theorem State.setSr_hook (s : State) (v : Word) : (s.setSr v).hook = s.hook := rfl

/-! ### `State.setPc` -/

@[simp] theorem State.setPc_pc (s : State) (v : Word) : (s.setPc v).pc = v := rfl
@[simp] theorem State.setPc_acc (s : State) (v : Word) : (s.setPc v).acc = s.acc := rfl
@[simp] theorem State.setPc_lr (s : State) (v : Word) : (s.setPc v).lr = s.lr := rfl
@[simp] theorem State.setPc_sr (s : State) (v : Word) : (s.setPc v).sr = s.sr := rfl
@[simp] theorem State.setPc_gpr (s : State) (v : Word) : (s.setPc v).gpr = s.gpr := rfl
@[simp] theorem State.setPc_halt (s : State) (v : Word) : (s.setPc v).halt = s.halt := rfl
@[simp] theorem State.setPc_mem (s : State) (v : Word) : (s.setPc v).mem = s.mem := rfl
@[simp] theorem State.setPc_hook (s : State) (v : Word) : (s.setPc v).hook = s.hook := rfl

/-! ### `State.setHalt` -/

@[simp] theorem State.setHalt_pc (s : State) : (s.setHalt).pc = s.pc := rfl
@[simp] theorem State.setHalt_acc (s : State) : (s.setHalt).acc = s.acc := rfl
@[simp] theorem State.setHalt_lr (s : State) : (s.setHalt).lr = s.lr := rfl
@[simp] theorem State.setHalt_sr (s : State) : (s.setHalt).sr = s.sr := rfl
@[simp] theorem State.setHalt_gpr (s : State) : (s.setHalt).gpr = s.gpr := rfl
@[simp] theorem State.setHalt_halt (s : State) : (s.setHalt).halt = true := rfl
@[simp] theorem State.setHalt_mem (s : State) : (s.setHalt).mem = s.mem := rfl
@[simp] theorem State.setHalt_hook (s : State) : (s.setHalt).hook = s.hook := rfl

/-! ### `State.setMem` -/

@[simp] theorem State.setMem_pc (s : State) (m : Memory) : (s.setMem m).pc = s.pc := rfl
@[simp] theorem State.setMem_acc (s : State) (m : Memory) : (s.setMem m).acc = s.acc := rfl
@[simp] theorem State.setMem_lr (s : State) (m : Memory) : (s.setMem m).lr = s.lr := rfl
@[simp] theorem State.setMem_sr (s : State) (m : Memory) : (s.setMem m).sr = s.sr := rfl
@[simp] theorem State.setMem_gpr (s : State) (m : Memory) : (s.setMem m).gpr = s.gpr := rfl
@[simp] theorem State.setMem_halt (s : State) (m : Memory) : (s.setMem m).halt = s.halt := rfl
@[simp] theorem State.setMem_mem (s : State) (m : Memory) : (s.setMem m).mem = m := rfl
@[simp] theorem State.setMem_hook (s : State) (m : Memory) : (s.setMem m).hook = s.hook := rfl

/-! ### `State.setGpr` -/

@[simp] theorem State.setGpr_pc (s : State) (r : Reg) (v : Word) : (s.setGpr r v).pc = s.pc := rfl
@[simp] theorem State.setGpr_acc (s : State) (r : Reg) (v : Word) : (s.setGpr r v).acc = s.acc := rfl
@[simp] theorem State.setGpr_lr (s : State) (r : Reg) (v : Word) : (s.setGpr r v).lr = s.lr := rfl
@[simp] theorem State.setGpr_sr (s : State) (r : Reg) (v : Word) : (s.setGpr r v).sr = s.sr := rfl
@[simp] theorem State.setGpr_gpr (s : State) (r : Reg) (v : Word) : (s.setGpr r v).gpr = s.gpr.set r.val v r.isLt := rfl
@[simp] theorem State.setGpr_halt (s : State) (r : Reg) (v : Word) : (s.setGpr r v).halt = s.halt := rfl
@[simp] theorem State.setGpr_mem (s : State) (r : Reg) (v : Word) : (s.setGpr r v).mem = s.mem := rfl
@[simp] theorem State.setGpr_hook (s : State) (r : Reg) (v : Word) : (s.setGpr r v).hook = s.hook := rfl

/-! ### `State.invokeHook` -/

@[simp] theorem State.invokeHook_pc (s : State) (k : TrapKind) : (s.invokeHook k).pc = s.pc := rfl
@[simp] theorem State.invokeHook_acc (s : State) (k : TrapKind) : (s.invokeHook k).acc = s.acc := rfl
@[simp] theorem State.invokeHook_lr (s : State) (k : TrapKind) : (s.invokeHook k).lr = s.lr := rfl
@[simp] theorem State.invokeHook_sr (s : State) (k : TrapKind) : (s.invokeHook k).sr = s.sr := rfl
@[simp] theorem State.invokeHook_gpr (s : State) (k : TrapKind) : (s.invokeHook k).gpr = s.gpr := rfl
@[simp] theorem State.invokeHook_halt (s : State) (k : TrapKind) : (s.invokeHook k).halt = (s.halt || decide (s.hookAnswer k = .halt)) := rfl
@[simp] theorem State.invokeHook_mem (s : State) (k : TrapKind) : (s.invokeHook k).mem = s.mem := rfl
@[simp] theorem State.invokeHook_hook (s : State) (k : TrapKind) : (s.invokeHook k).hook = s.hook.afterCall { kind := k, view := s.view } := rfl

/-! ### `State.withHook` -/

@[simp] theorem State.withHook_pc (s : State) (q : List HookReply) (f : HookReply) : (s.withHook q f).pc = s.pc := rfl
@[simp] theorem State.withHook_acc (s : State) (q : List HookReply) (f : HookReply) : (s.withHook q f).acc = s.acc := rfl
@[simp] theorem State.withHook_lr (s : State) (q : List HookReply) (f : HookReply) : (s.withHook q f).lr = s.lr := rfl
@[simp] theorem State.withHook_sr (s : State) (q : List HookReply) (f : HookReply) : (s.withHook q f).sr = s.sr := rfl
@[simp] theorem State.withHook_gpr (s : State) (q : List HookReply) (f : HookReply) : (s.withHook q f).gpr = s.gpr := rfl
@[simp] theorem State.withHook_halt (s : State) (q : List HookReply) (f : HookReply) : (s.withHook q f).halt = s.halt := rfl
@[simp] theorem State.withHook_mem (s : State) (q : List HookReply) (f : HookReply) : (s.withHook q f).mem = s.mem := rfl
@[simp] theorem State.withHook_hook (s : State) (q : List HookReply) (f : HookReply) : (s.withHook q f).hook = { replies := q, fallback := f, calls := s.hook.calls } := rfl

/-! ### Reading a general register -/

@[simp] theorem State.readGpr_setAcc (s : State) (v : Word) (r : Reg) :
    (s.setAcc v).readGpr r = s.readGpr r := rfl
@[simp] theorem State.readGpr_setLr (s : State) (v : Word) (r : Reg) :
    (s.setLr v).readGpr r = s.readGpr r := rfl
@[simp] theorem State.readGpr_setSr (s : State) (v : Word) (r : Reg) :
    (s.setSr v).readGpr r = s.readGpr r := rfl
@[simp] theorem State.readGpr_setPc (s : State) (v : Word) (r : Reg) :
    (s.setPc v).readGpr r = s.readGpr r := rfl
@[simp] theorem State.readGpr_setHalt (s : State) (r : Reg) :
    s.setHalt.readGpr r = s.readGpr r := rfl
@[simp] theorem State.readGpr_setMem (s : State) (m : Memory) (r : Reg) :
    (s.setMem m).readGpr r = s.readGpr r := rfl
@[simp] theorem State.readGpr_invokeHook (s : State) (k : TrapKind) (r : Reg) :
    (s.invokeHook k).readGpr r = s.readGpr r := rfl
@[simp] theorem State.readGpr_withHook (s : State) (q : List HookReply) (f : HookReply) (r : Reg) :
    (s.withHook q f).readGpr r = s.readGpr r := rfl

/-- A general register reads back what was written to it, and no other one changes (R20). -/
theorem State.readGpr_setGpr (s : State) (r : Reg) (v : Word) (q : Reg) :
    (s.setGpr r v).readGpr q = if q = r then v else s.readGpr q := by
  simp only [State.readGpr, State.setGpr, Vector.getElem_set, Fin.ext_iff]
  by_cases h : q.val = r.val
  · rw [if_pos h, if_pos h.symm]
  · rw [if_neg h, if_neg (Ne.symm h)]

@[simp] theorem State.readGpr_setGpr_self (s : State) (r : Reg) (v : Word) :
    (s.setGpr r v).readGpr r = v := by
  simp [State.readGpr_setGpr]

/-! ### The addresses after an instruction, and the view -/

theorem State.afterShort_eq (s : State) : s.afterShort = s.pc + 1 := rfl
theorem State.afterLong_eq (s : State) : s.afterLong = s.pc + 3 := rfl

@[simp] theorem State.view_pc (s : State) : s.view.pc = s.pc := rfl
@[simp] theorem State.view_acc (s : State) : s.view.acc = s.acc := rfl
@[simp] theorem State.view_lr (s : State) : s.view.lr = s.lr := rfl
@[simp] theorem State.view_sr (s : State) : s.view.sr = s.sr := rfl
@[simp] theorem State.view_gpr (s : State) : s.view.gpr = s.gpr := rfl
@[simp] theorem State.view_mem (s : State) : s.view.mem = s.mem := rfl

/-! ### The hook port -/

@[simp] theorem HookPort.afterCall_replies (h : HookPort) (c : HookCall) :
    (h.afterCall c).replies = h.replies.tail := rfl
@[simp] theorem HookPort.afterCall_fallback (h : HookPort) (c : HookCall) :
    (h.afterCall c).fallback = h.fallback := rfl
@[simp] theorem HookPort.afterCall_calls (h : HookPort) (c : HookCall) :
    (h.afterCall c).calls = c :: h.calls := rfl

end Sys2Proof.Machine
end

