-- ==== Sys2Proof/Laws/Step.lean ====
section
/-! SUPPORT. Once over all instructions: the state an instruction leads to when it completes, and
where it stops. Invariants and frames are derived from these lemmas instead of unfolding `exec`. -/

namespace Sys2Proof.Machine

/-- The state an instruction leads to where it completes, by the named updates. -/
def nextState (i : Instr) (s : State) : State :=
  match i with
  | .trapNull => (s.invokeHook .null).setPc s.afterShort
  | .trapTrace => (s.invokeHook .trace).setPc s.afterShort
  | .trapSys => (s.invokeHook .syscall).setPc s.afterShort
  | .trapExt => (s.invokeHook .extension).setPc s.afterShort
  | .mfsr => (s.setAcc s.sr).setPc s.afterShort
  | .mtsr => (s.setSr s.acc).setPc s.afterShort
  | .shl => (s.setAcc (shiftLeft s.sr s.acc)).setPc s.afterShort
  | .shr => (s.setAcc (shiftRight s.sr s.acc)).setPc s.afterShort
  | .jr => s.setPc s.acc
  | .callr => (s.setLr s.afterShort).setPc s.acc
  | .ret => s.setPc s.lr
  | .nop => s.setPc s.afterShort
  | .mflr => (s.setAcc s.lr).setPc s.afterShort
  | .mtlr => (s.setLr s.acc).setPc s.afterShort
  | .lpc => (s.setAcc s.afterShort).setPc s.afterShort
  | .halt => s.setHalt.setPc s.afterShort
  | .test c => (s.setAcc (testMask (condHolds c s.acc))).setPc s.afterShort
  | .mf r => (s.setAcc (s.readGpr r)).setPc s.afterShort
  | .mt r => (s.setGpr r s.acc).setPc s.afterShort
  | .and r => (s.setAcc (s.acc &&& s.readGpr r)).setPc s.afterShort
  | .or r => (s.setAcc (s.acc ||| s.readGpr r)).setPc s.afterShort
  | .xor r => (s.setAcc (s.acc ^^^ s.readGpr r)).setPc s.afterShort
  | .add r => (s.setAcc (s.acc + s.readGpr r)).setPc s.afterShort
  | .b c d => s.setPc (if condHolds c s.acc then relativeTarget s.afterLong d else s.afterLong)
  | .call c d =>
    if condHolds c s.acc then (s.setLr s.afterLong).setPc (relativeTarget s.afterLong d)
    else s.setPc s.afterLong
  | .ld r d => (s.setAcc (s.mem.rotatedWord (s.effectiveAddress r d))).setPc s.afterLong
  | .st r d => (s.setMem (s.mem.setRotatedWord (s.effectiveAddress r d) s.acc)).setPc s.afterLong
  | .andi a k => (s.setAcc (s.acc &&& ximm a k)).setPc s.afterLong
  | .ori a k => (s.setAcc (s.acc ||| ximm a k)).setPc s.afterLong
  | .xori a k => (s.setAcc (s.acc ^^^ ximm a k)).setPc s.afterLong
  | .addi a k => (s.setAcc (s.acc + ximm a k)).setPc s.afterLong

/-- All that an instruction can do: complete in `nextState`, or, for `ld` and `st` alone, raise the
fault of its kind with the unrotated index when that is not below `memsize` (R111, R180). -/
theorem exec_cases (i : Instr) (s : State) :
    exec i s = .next (nextState i s) ∨
      (∃ r d, i = .ld r d ∧ s.mem.size ≤ (s.effectiveAddress r d).toNat ∧
        exec i s = .fault (.memoryFault .load (s.effectiveAddress r d))) ∨
      (∃ r d, i = .st r d ∧ s.mem.size ≤ (s.effectiveAddress r d).toNat ∧
        exec i s = .fault (.memoryFault .store (s.effectiveAddress r d))) := by
  cases i
  case b c d => left; simp only [exec, execB, nextState]; split_ifs <;> rfl
  case call c d => left; simp only [exec, execCall, nextState]; split_ifs <;> rfl
  case ld r d =>
    rcases memRead_cases s.mem (s.effectiveAddress r d) with ⟨-, h⟩ | ⟨hb, h⟩
    · exact .inl (by simp [exec, execLd, nextState, h])
    · exact .inr (.inl ⟨r, d, rfl, hb, by simp [exec, execLd, h]⟩)
  case st r d =>
    rcases memWrite_cases s.mem (s.effectiveAddress r d) s.acc with ⟨-, h⟩ | ⟨hb, h⟩
    · exact .inl (by simp [exec, execSt, nextState, h])
    · exact .inr (.inr ⟨r, d, rfl, hb, by simp [exec, execSt, h]⟩)
  all_goals exact .inl rfl

/-- An instruction that completes does so in `nextState`. -/
theorem exec_next {i : Instr} {s t : State} (h : exec i s = .next t) : t = nextState i s := by
  rcases exec_cases i s with e | ⟨_, _, _, _, e⟩ | ⟨_, _, _, _, e⟩ <;> rw [e] at h <;> cases h
  rfl

/-- A store that completes had its index in bounds (R47). -/
theorem execSt_inBounds {r : Reg} {d : Disp} {s t : State} (h : exec (.st r d) s = .next t) :
    (s.effectiveAddress r d).toNat < s.mem.size := by
  rcases memWrite_cases s.mem (s.effectiveAddress r d) s.acc with ⟨hb, -⟩ | ⟨-, e⟩
  · exact hb
  · simp [exec, execSt, e] at h

/-- All that a step can do (R100, R101): idle, fault in the fetch, or run the fetched instruction. -/
theorem step_cases (s : State) :
    (s.halt = true ∧ step s = .next s) ∨
      (s.halt = false ∧ ∃ f, fetchInstr s.mem s.pc = .error f ∧ step s = .fault f) ∨
      (s.halt = false ∧ ∃ i, fetchInstr s.mem s.pc = .ok i ∧ step s = exec i s) := by
  cases hh : s.halt with
  | true => exact .inl ⟨rfl, by simp [step, hh]⟩
  | false =>
    cases hf : fetchInstr s.mem s.pc with
    | error f => exact .inr (.inl ⟨rfl, f, rfl, by simp [step, hh, hf]⟩)
    | ok i => exact .inr (.inr ⟨rfl, i, rfl, by simp [step, hh, hf]⟩)

end Sys2Proof.Machine
end

