-- ==== Sys2Proof/Tests/Slice0.lean ====
section
/-! SUPPORT. The model's own tests: the well-formedness checks, the decoding of every constructor from
a word written out from spec/30_encoding.md R86, single steps with the values of
spec/95_test_vectors.md, and one witness theorem for every obligation that has hypotheses. -/

namespace Sys2Proof.Tests

open Sys2Proof.Machine Sys2Proof.Config

/-! ### Well-formedness -/

/-- R90: each check refuses a displacement just outside −32768 … 32767. -/
theorem test_illFormed_b : Instr.wellFormed (.b 0xF 32768) = false := by decide
theorem test_illFormed_call : Instr.wellFormed (.call 0xF (-32769)) = false := by decide
theorem test_illFormed_ld : Instr.wellFormed (.ld 0 32768) = false := by decide
theorem test_illFormed_st : Instr.wellFormed (.st 15 (-32769)) = false := by decide
theorem test_wellFormed_bounds :
    Instr.wellFormed (.b 0 (-32768)) = true ∧ Instr.wellFormed (.call 0 32767) = true ∧
      Instr.wellFormed (.ld 0 32767) = true ∧ Instr.wellFormed (.st 0 (-32768)) = true := by decide

/-! ### Decoding: words written out from the encodings of R72 and R86 -/

theorem test_decode_traps :
    decodeTableWord 8 0b00000000 = some .trapNull ∧ decodeTableWord 8 0b00000001 = some .trapTrace ∧
      decodeTableWord 8 0b00000010 = some .trapSys ∧
      decodeTableWord 8 0b00000011 = some .trapExt := by decide
theorem test_decode_shift_register :
    decodeTableWord 8 0b00000100 = some .mfsr ∧ decodeTableWord 8 0b00000101 = some .mtsr ∧
      decodeTableWord 8 0b00000110 = some .shl ∧ decodeTableWord 8 0b00000111 = some .shr := by decide
theorem test_decode_indirect :
    decodeTableWord 8 0b00001000 = some .jr ∧ decodeTableWord 8 0b00001001 = some .callr ∧
      decodeTableWord 8 0b00001010 = some .ret ∧ decodeTableWord 8 0b00001011 = some .nop := by decide
theorem test_decode_link_and_halt :
    decodeTableWord 8 0b00001100 = some .mflr ∧ decodeTableWord 8 0b00001101 = some .mtlr ∧
      decodeTableWord 8 0b00001110 = some .lpc ∧ decodeTableWord 8 0b00001111 = some .halt := by decide
theorem test_decode_test : decodeTableWord 8 0b00011010 = some (.test 0b1010) := by decide
theorem test_decode_registers :
    decodeTableWord 8 0b00100111 = some (.mf 7) ∧ decodeTableWord 8 0b00111111 = some (.mt 15) ∧
      decodeTableWord 8 0b01000011 = some (.and 3) ∧ decodeTableWord 8 0b01010001 = some (.or 1) ∧
      decodeTableWord 8 0b01101000 = some (.xor 8) ∧
      decodeTableWord 8 0b01111110 = some (.add 14) := by decide
/-- The literal's low byte comes first: −11 is FFF5, 4 is 0004 (R74, R90). -/
theorem test_decode_relative :
    decode [0b10001110, 0xF5, 0xFF] = .ok (.b 0b1110 (-11), []) ∧
      decode [0b10011111, 0x04, 0x00] = .ok (.call 0b1111 4, []) := ⟨rfl, rfl⟩
theorem test_decode_memory :
    decode [0b10100001, 0x02, 0x00] = .ok (.ld 1 2, []) ∧
      decode [0b10111111, 0x00, 0x80] = .ok (.st 15 (-32768), []) := ⟨rfl, rfl⟩
theorem test_decode_immediate :
    decode [0b11000011, 0xFF, 0xFE] = .ok (.andi 3 0xFEFF, []) ∧
      decode [0b11011100, 0x88, 0x77] = .ok (.ori 0xC 0x7788, []) ∧
      decode [0b11100111, 0x0F, 0x1F] = .ok (.xori 7 0x1F0F, []) ∧
      decode [0b11111001, 0x42, 0x69] = .ok (.addi 9 0x6942, []) := ⟨rfl, rfl, rfl, rfl⟩

theorem test_decode_no_opcode : decode [] = .error .noOpcode := rfl
theorem test_decode_no_literal : decode [0x8F, 0x00] = .error .noLiteral := rfl

/-! ### Small states -/

/-- A machine of 64 bytes with an image, right after reset. -/
def machine (image : List Byte) : State :=
  match State.init 64 image with
  | .ok s => s
  | .error _ => State.reset

/-- A machine of 64 bytes with these bytes at an address, and `pc` there. -/
def machineAt (a : Nat) (bytes : List Byte) : State :=
  { machine [] with pc := BitVec.ofNat 64 a, mem := (Memory.zeroed 64).setBytes a bytes }

/-- The same machine under a hook that always answers `Continue`. -/
def continuing (s : State) : State :=
  s.withHook []
    { null := .continue, trace := .continue, syscall := .continue, extension := .continue }

/-- One part of the next state. -/
def part {α : Type} (f : State → α) : Host.Outcome State Fault Refusal → Option α
  | .next t => some (f t)
  | .fault _ => none
  | .refused _ => none

/-- The fault a step ends in. -/
def faultOf : Host.Outcome State Fault Refusal → Option Fault
  | .next _ => none
  | .fault f => some f
  | .refused _ => none

/-- The kinds of the hook calls so far, latest first. -/
def kinds (s : State) : List TrapKind := s.hook.calls.map HookCall.kind

/-! ### One step of each instruction (values of spec/95_test_vectors.md sections 1, 2.3 to 2.9) -/

theorem test_trapNull_halts :
    part (fun t => (t.halt, t.pc, kinds t)) (step (machine [0x00])) =
      some (true, 1, [.null]) := by decide
theorem test_trapTrace_continues :
    part (fun t => (t.halt, t.pc, kinds t)) (step (continuing (machine [0x01]))) =
      some (false, 1, [.trace]) := by decide
theorem test_trapSys_halts :
    part (fun t => (t.halt, t.pc, kinds t)) (step (machine [0x02])) =
      some (true, 1, [.syscall]) := by decide
theorem test_trapExt_continues :
    part (fun t => (t.halt, t.pc, kinds t)) (step (continuing (machineAt 7 [0x03]))) =
      some (false, 8, [.extension]) := by decide
theorem test_mfsr :
    part (fun t => (t.acc, t.pc))
        (step { machine [0x04] with sr := 0x123456789ABCDEF0, acc := 5 }) =
      some (0x123456789ABCDEF0, 1) := by decide
theorem test_mtsr :
    part (fun t => (t.sr, t.pc)) (step { machine [0x05] with sr := 1, acc := 0xDEADBEEF }) =
      some (0xDEADBEEF, 1) := by decide
theorem test_shl_loses_bit63 :
    part (fun t => (t.acc, t.sr)) (step { machine [0x06] with sr := 0x8000000000000001, acc := 4 }) =
      some (0x10, 0x8000000000000001) := by decide
theorem test_shl_amount_modulo_64 :
    part State.acc (step { machine [0x06] with sr := 3, acc := 0x141 }) = some 6 := by decide
theorem test_shr_fills_zeros :
    part (fun t => (t.acc, t.sr)) (step { machine [0x07] with sr := 0x8000000000000001, acc := 4 }) =
      some (0x0800000000000000, 0x8000000000000001) := by decide
theorem test_shr_amount_modulo_64 :
    part State.acc (step { machine [0x07] with sr := 0x8000000000000000, acc := 0x40 }) =
      some 0x8000000000000000 := by decide
theorem test_jr :
    part State.pc (step { machine [0x08] with acc := 0xFFFFFFFFFFFFFFF0 }) =
      some 0xFFFFFFFFFFFFFFF0 := by decide
theorem test_callr :
    part (fun t => (t.pc, t.lr)) (step { machine [0x09] with acc := 0x20, lr := 0x99 }) =
      some (0x20, 1) := by decide
theorem test_ret :
    part (fun t => (t.pc, t.lr)) (step { machine [0x0A] with lr := 0x30 }) =
      some (0x30, 0x30) := by decide
theorem test_nop :
    part (fun t => (t.pc, t.acc)) (step { machine [0x0B] with acc := 7 }) = some (1, 7) := by decide
theorem test_mflr :
    part (fun t => (t.acc, t.pc)) (step { machine [0x0C] with lr := 0x1234 }) =
      some (0x1234, 1) := by decide
theorem test_mtlr :
    part (fun t => (t.lr, t.pc)) (step { machine [0x0D] with acc := 0x5678 }) =
      some (0x5678, 1) := by decide
theorem test_lpc :
    part (fun t => (t.acc, t.pc)) (step (machineAt 5 [0x0E])) = some (6, 6) := by decide
theorem test_halt_advances :
    part (fun t => (t.halt, t.pc, t.acc)) (step { machine [0x0F] with acc := 1 }) =
      some (true, 1, 1) := by decide
theorem test_test_minimum :
    part State.acc (step { machine [0x15] with acc := 0x8000000000000000 }) =
      some 0xFFFFFFFFFFFFFFFF := by decide
theorem test_test_other_negative :
    part State.acc (step { machine [0x15] with acc := 0xFFFFFFFFFFFFFFFF }) = some 0 := by decide
theorem test_mf :
    part (fun t => (t.acc, t.pc)) (step ({ machine [0x27] with acc := 1 }.setGpr 7 0xCAFE)) =
      some (0xCAFE, 1) := by decide
/-- Register 0 is an ordinary register. -/
theorem test_mt_r0 :
    part (fun t => (t.readGpr 0, t.readGpr 1)) (step { machine [0x30] with acc := 0xBEEF }) =
      some (0xBEEF, 0) := by decide
theorem test_mt_r15 :
    part (fun t => (t.readGpr 15, t.acc)) (step { machine [0x3F] with acc := 0xBEEF }) =
      some (0xBEEF, 0xBEEF) := by decide
theorem test_and :
    part State.acc
        (step ({ machine [0x43] with acc := 0xFF00FF00FF00FF00 }.setGpr 3 0x0FF00FF00FF00FF0)) =
      some 0x0F000F000F000F00 := by decide
theorem test_or :
    part State.acc
        (step ({ machine [0x53] with acc := 0xFF00FF00FF00FF00 }.setGpr 3 0x0FF00FF00FF00FF0)) =
      some 0xFFF0FFF0FFF0FFF0 := by decide
theorem test_xor :
    part State.acc
        (step ({ machine [0x63] with acc := 0xFF00FF00FF00FF00 }.setGpr 3 0x0FF00FF00FF00FF0)) =
      some 0xF0F0F0F0F0F0F0F0 := by decide
theorem test_add_wraps :
    part State.acc (step ({ machine [0x73] with acc := 0xFFFFFFFFFFFFFFFF }.setGpr 3 2)) =
      some 1 := by decide
theorem test_b_wraps_below_zero :
    part (fun t => (t.pc, t.acc)) (step { machine [0x82, 0xFC, 0xFF] with acc := 5 }) =
      some (0xFFFFFFFFFFFFFFFF, 5) := by decide
theorem test_b_not_taken :
    part State.pc (step { machineAt 0x10 [0x8E, 0x00, 0x80] with acc := 0 }) = some 0x13 := by decide
theorem test_call_taken :
    part (fun t => (t.lr, t.pc))
        (step { machineAt 0x10 [0x94, 0x00, 0x01] with acc := 0x8000000000000000, lr := 0x77 }) =
      some (0x13, 0x113) := by decide
theorem test_call_not_taken :
    part (fun t => (t.lr, t.pc))
        (step { machineAt 0x10 [0x94, 0x00, 0x01] with acc := 1, lr := 0x77 }) =
      some (0x77, 0x13) := by decide

/-- The memory of section 2.7: `C0` to `CF` at 20 to 2F, one instruction at 0. -/
def loadMachine (bytes : List Byte) : State :=
  { machine bytes with
    mem := (machine bytes).mem.setBytes 0x20
      [0xC0, 0xC1, 0xC2, 0xC3, 0xC4, 0xC5, 0xC6, 0xC7, 0xC8, 0xC9, 0xCA, 0xCB, 0xCC, 0xCD, 0xCE, 0xCF] }

theorem test_ld_rotates_in_its_block :
    part (fun t => (t.acc, t.pc, t.readGpr 1)) (step ((loadMachine [0xA1, 0xFF, 0xFF]).setGpr 1 0x28)) =
      some (0xC6C5C4C3C2C1C0C7, 3, 0x28) := by decide
theorem test_ld_address_wraps :
    part State.acc (step ((loadMachine [0xA1, 0x21, 0x00]).setGpr 1 0xFFFFFFFFFFFFFFFF)) =
      some 0xC7C6C5C4C3C2C1C0 := by decide
theorem test_st_rotates_in_its_block :
    part (fun t => (t.mem.bytesAt 0x37 9, t.pc))
        (step ({ machine [0xB1, 0xFF, 0xFF] with acc := 0x0807060504030201 }.setGpr 1 0x40)) =
      some ([0x00, 0x02, 0x03, 0x04, 0x05, 0x06, 0x07, 0x08, 0x01], 3) := by decide
/-- R58: a store may overwrite its own instruction. -/
theorem test_st_over_itself :
    part (fun t => t.mem.bytesAt 0 9)
        (step { machine [0xB2, 0x05, 0x00] with acc := 0x0807060504030201 }) =
      some [0x04, 0x05, 0x06, 0x07, 0x08, 0x01, 0x02, 0x03, 0x00] := by decide
theorem test_andi :
    part State.acc (step { machine [0xC7, 0x0F, 0x0F] with acc := 0x123456789ABCDEF0 }) =
      some 0x123456780A0CDEF0 := by decide
theorem test_ori :
    part State.acc (step { machine [0xDB, 0x00, 0x80] with acc := 0x123456789ABCDEF0 }) =
      some 0xFFFFD678FFFFFFFF := by decide
theorem test_xori :
    part State.acc (step { machine [0xEC, 0x01, 0x00] with acc := 0x123456789ABCDEF0 }) =
      some 0x123556789ABCDEF0 := by decide
theorem test_addi :
    part (fun t => (t.acc, t.pc)) (step { machine [0xF7, 0x0F, 0x0F] with acc := 0x123456789ABCDEF0 }) =
      some (0x12345677A9CCDEEF, 3) := by decide
/-- The spec's corrected value of the source's scenario (example S1, log 11). -/
theorem test_addi_scenario :
    part State.acc (step (machine [0xF9, 0x42, 0x69])) = some 0xFFFF694200000000 := by decide

/-! ### Immediates (the second table of example S9) -/

theorem test_ximm_flags_alone :
    ximm 0 0x8001 = 0x0000000000008001 ∧ ximm 1 0x8001 = 0x00000000FFFF8001 ∧
      ximm 2 0x8001 = 0xFFFFFFFF00008001 ∧ ximm 4 0x8001 = 0x0000000080010000 ∧
      ximm 8 0x8001 = 0x0000800100000000 := by decide
theorem test_ximm_flags_together :
    ximm 5 0x8001 = 0x000000008001FFFF ∧ ximm 0xB 0x8001 = 0xFFFF8001FFFFFFFF ∧
      ximm 0xE 0x8001 = 0x80010000FFFFFFFF ∧ ximm 0xF 0x8001 = 0x8001FFFFFFFFFFFF := by decide

/-! ### Faults (section 2.9) -/

theorem test_fetch_fault_at_the_end :
    faultOf (step { machine [] with pc := 0x40 }) = some (.memoryFault .fetch 0x40) := by decide
theorem test_fetch_fault_on_literal :
    faultOf (step (machineAt 0x3E [0x8F, 0x00])) = some (.memoryFault .fetch 0x40) := by decide
theorem test_fetch_fault_first :
    faultOf (step (machineAt 0x3E [0xA0, 0x40])) = some (.memoryFault .fetch 0x40) := by decide
theorem test_load_fault :
    faultOf (step (machineAt 0x3D [0xA0, 0x40, 0x00])) = some (.memoryFault .load 0x40) := by decide
theorem test_store_fault :
    faultOf (step ((machine [0xB1, 0x00, 0x00]).setGpr 1 0x40)) =
      some (.memoryFault .store 0x40) := by decide
theorem test_halted_core_does_not_fetch :
    part State.pc (step { machine [] with pc := 0x40, halt := true }) = some 0x40 := by decide

/-! ### Reset, placing an instruction, and the record form -/

/-- What the host makes of a requested size (R211). -/
theorem test_requested_sizes :
    memsizeOfRequest 1 = 8 ∧ memsizeOfRequest 8 = 8 ∧ memsizeOfRequest 9 = 16 ∧
      (State.boot 3 [0x0B, 0x0F]).map State.mem =
        .ok { size := 8, cells := [(0, 0x0B), (1, 0x0F)] } := ⟨rfl, rfl, rfl, rfl⟩
/-- The smallest and the largest capacity are made, their neighbours are refused (R211, U14). -/
theorem test_sizes_made :
    (State.boot 1 []).map (fun s => s.mem.size) = .ok 8 ∧
      (State.boot (2 ^ 64 - 8) []).map (fun s => s.mem.size) = .ok (2 ^ 64 - 8) := ⟨rfl, rfl⟩
theorem test_sizes_refused :
    State.boot 0 [0x0F] = .error (.badMemsize 0) ∧
      State.boot (2 ^ 64 - 7) [] = .error (.badMemsize (2 ^ 64)) ∧
      State.init 5 [] = .error (.badMemsize 5) ∧ State.init 0 [] = .error (.badMemsize 0) :=
  ⟨rfl, rfl, rfl, rfl⟩
theorem test_place_and_run :
    part (fun t => (t.acc, t.pc)) (step (State.reset.withFetchWord 24 0x6942F9)) =
      some (0xFFFF694200000000, 3) := by decide
theorem test_record_of_a_long_instruction :
    recordOf 0x8E 0xFFF5 1 =
      { op := 8, arg := 0xE, length := 3, imm := 0xFFF5, simm := 0xFFFFFFFFFFFFFFF5, ximm := 0,
        cond := true } := by decide

/-- A state whose registers hold different values. -/
def mixed : State :=
  { machine [] with acc := 0x8000000000000000, lr := 0x77, sr := 3 }

/-! ### Witnesses: states and operands that meet the hypotheses of each obligation -/

theorem witness_ResetLoadsImage :
    (sizeWf 8 = true ∧ (7 : Nat) < 8) ∧ sizeWf (2 ^ 64 - 8) = true := by decide
theorem witness_RequestedSizeRoundsUp :
    (1 ≤ (1 : Nat) ∧ (1 : Nat) ≤ maxMemsize) ∧ (1 ≤ maxMemsize ∧ maxMemsize ≤ maxMemsize) ∧
      ¬(8 ≤ 0 ∧ 0 % 8 = 0 ∧ 0 ≤ 2 ^ 64 - 8) ∧ ¬(8 ≤ 9 ∧ 9 % 8 = 0 ∧ 9 ≤ 2 ^ 64 - 8) ∧
      ¬(8 ≤ 2 ^ 64 ∧ 2 ^ 64 % 8 = 0 ∧ 2 ^ 64 ≤ 2 ^ 64 - 8) ∧ maxMemsize < maxMemsize + 1 ∧
      List.length [0x0B, (0x0F : Byte)] ≤ 2 := by decide
theorem witness_DecodeOfEncode :
    Instr.wellFormed (.ld 15 (-32768)) = true ∧ Instr.wellFormed (.b 0xF 32767) = true := by decide
theorem witness_EncodeOfDecode : decode [0x8F, 0xFD, 0xFF, 0x0B] = .ok (.b 0xF (-3), [0x0B]) := rfl
theorem witness_StepRunsDecodedInstruction :
    ((machineAt 61 [0xA1, 0x02, 0x00]).Inv ∧
        (machineAt 61 [0xA1, 0x02, 0x00]).RunsBytes [0xA1, 0x02, 0x00]) ∧
      decode [0xA1, 0x02, 0x00] = .ok (.ld 1 2, []) := ⟨by decide, rfl⟩
theorem witness_HaltedCoreIdles : ({ machine [] with pc := 0x40, halt := true } : State).halt = true := rfl
theorem witness_PlacedWordRunsNext :
    ({ machine [] with pc := 0x3E } : State).Inv ∧
      decodeTableWord 24 0x0002A1 = some (.ld 1 2) := by decide
theorem witness_StepKeepsMemoryWellFormed :
    (machine [0xB0, 0x3F, 0x00]).Inv ∧ ∃ t, step (machine [0xB0, 0x3F, 0x00]) = .next t :=
  ⟨by decide, _, rfl⟩
theorem witness_EqualBytesEqualMemory :
    let m := ((Memory.zeroed 8).set 1 5).set 7 9
    let n := ((Memory.zeroed 8).set 7 9).set 1 5
    m.wf = true ∧ n.wf = true ∧ m.size = n.size ∧ ∀ a, m.get a = n.get a :=
  ⟨by decide, by decide, rfl, fun _ => rfl⟩
/-- No cause, and each cause of a fault: the fetch at `pc`, `pc + 1` and `pc + 2`, the load, the
store. -/
theorem witness_FaultsAreTheFirstCause :
    ((machine []).Inv ∧ (machine []).firstFault = none) ∧
      ((machineAt 64 []).Inv ∧ (machineAt 64 []).firstFault = some (.fetch, 64)) ∧
      ((machineAt 63 [0x8F]).Inv ∧ (machineAt 63 [0x8F]).firstFault = some (.fetch, 64)) ∧
      ((machineAt 62 [0x8F]).Inv ∧ (machineAt 62 [0x8F]).firstFault = some (.fetch, 64)) ∧
      ((machineAt 0 [0xA0, 0x40, 0x00]).Inv ∧
        (machineAt 0 [0xA0, 0x40, 0x00]).firstFault = some (.load, 64)) ∧
      ((machineAt 0 [0xB0, 0xFF, 0xFF]).Inv ∧
        (machineAt 0 [0xB0, 0xFF, 0xFF]).firstFault = some (.store, 0xFFFFFFFFFFFFFFFF)) := by decide
theorem witness_StepCompletesWithoutCause :
    (machineAt 63 [0x0B]).Inv ∧ (machineAt 63 [0x0B]).firstFault = none := by decide
theorem witness_TrapsInvokeTheHook :
    (machineAt 63 [0x00]).RunsBytes [0x00] ∧ (machineAt 63 [0x01]).RunsBytes [0x01] ∧
      (machineAt 63 [0x02]).RunsBytes [0x02] ∧ (machineAt 63 [0x03]).RunsBytes [0x03] := by decide
theorem witness_MovesOfShiftAndLinkRegister :
    (∃ t, exec .mtsr mixed = .next t ∧ t.sr ≠ mixed.sr) ∧
      (machineAt 63 [0x04]).RunsBytes [0x04] ∧ (machineAt 63 [0x05]).RunsBytes [0x05] ∧
      (machineAt 63 [0x0C]).RunsBytes [0x0C] ∧ (machineAt 63 [0x0D]).RunsBytes [0x0D] :=
  ⟨⟨_, rfl, by decide⟩, by decide⟩
theorem witness_ShiftsByAccModulo64 :
    (machineAt 63 [0x06]).RunsBytes [0x06] ∧ (machineAt 63 [0x07]).RunsBytes [0x07] := by decide
theorem witness_IndirectControlTransfers :
    ((machineAt 63 [0x08]).RunsBytes [0x08] ∧ (machineAt 63 [0x09]).RunsBytes [0x09] ∧
        (machineAt 63 [0x0A]).RunsBytes [0x0A]) ∧
      ({ machine [0x08] with acc := 64 } : State).halt = false ∧
      ({ machine [0x08] with acc := 64 } : State).mem.size ≤
        ({ machine [0x08] with acc := 64 } : State).acc.toNat := by decide
theorem witness_NopAndLoadPc :
    (machineAt 63 [0x0B]).RunsBytes [0x0B] ∧ (machineAt 63 [0x0E]).RunsBytes [0x0E] := by decide
theorem witness_HaltStopsTheCore : (machineAt 63 [0x0F]).RunsBytes [0x0F] := by decide
theorem witness_TestWritesMask :
    (machineAt 63 [0x10]).RunsBytes [BitVec.ofNat 8 (0x10 + (0x0 : Selector).toNat)] ∧
      (machineAt 63 [0x1F]).RunsBytes [BitVec.ofNat 8 (0x10 + (0xF : Selector).toNat)] := by decide
theorem witness_RegisterOperationsWriteAcc :
    (machineAt 63 [0x20]).RunsBytes [BitVec.ofNat 8 (0x20 + (0 : Reg).val)] ∧
      (machineAt 63 [0x4F]).RunsBytes [BitVec.ofNat 8 (0x40 + (15 : Reg).val)] ∧
      (machineAt 63 [0x5F]).RunsBytes [BitVec.ofNat 8 (0x50 + (15 : Reg).val)] ∧
      (machineAt 63 [0x6F]).RunsBytes [BitVec.ofNat 8 (0x60 + (15 : Reg).val)] ∧
      (machineAt 63 [0x7F]).RunsBytes [BitVec.ofNat 8 (0x70 + (15 : Reg).val)] := by decide
theorem witness_MoveToRegisterWritesOne :
    ((machineAt 63 [0x3F]).RunsBytes [BitVec.ofNat 8 (0x30 + (15 : Reg).val)] ∧ (0 : Reg) ≠ 15) ∧
      ∃ t, exec (.mt 15) mixed = .next t ∧ t.readGpr 15 ≠ mixed.readGpr 15 :=
  ⟨by decide, _, rfl, by decide⟩
theorem witness_BranchIsRelativeToNext :
    (Disp.Encodable (-32768) ∧ (machineAt 61 [0x8F, 0x00, 0x80]).Inv ∧
      (machineAt 61 [0x8F, 0x00, 0x80]).RunsBytes
        [BitVec.ofNat 8 (0x80 + (0xF : Selector).toNat), BitVec.ofInt 8 (-32768),
          BitVec.ofInt 8 (-32768 / 256)]) ∧ Disp.Encodable 32767 := by decide
theorem witness_CallLinksOnlyWhenTaken :
    (Disp.Encodable 32767 ∧ (machineAt 61 [0x90, 0xFF, 0x7F]).Inv ∧
      (machineAt 61 [0x90, 0xFF, 0x7F]).RunsBytes
        [BitVec.ofNat 8 (0x90 + (0x0 : Selector).toNat), BitVec.ofInt 8 32767,
          BitVec.ofInt 8 (32767 / 256)]) ∧
      (Disp.Encodable (-32768) ∧ selects 0x4 mixed.acc = true) ∧
      (Disp.Encodable (-32768) ∧ selects 0xB mixed.acc = false) := by decide
theorem witness_EffectiveAddressIsBasePlusOffset :
    Disp.Encodable (-32768) ∧ Disp.Encodable 32767 := by decide
/-- The last index in bounds, 63, and the first one out of bounds, 64. -/
theorem witness_LoadReadsRotatedBlock :
    let s := (machineAt 61 [0xAF, 0xFF, 0xFF]).setGpr 15 64
    (s.effectiveAddress 15 (-1)).toNat < s.mem.size ∧ s.Inv ∧ Disp.Encodable (-1) ∧
      s.RunsBytes [BitVec.ofNat 8 (0xA0 + (15 : Reg).val), BitVec.ofInt 8 (-1),
        BitVec.ofInt 8 (-1 / 256)] ∧
      s.mem.size ≤ (s.effectiveAddress 15 0).toNat := by decide
theorem witness_StoreWritesRotatedBlock :
    let s := (machineAt 61 [0xB0, 0x3F, 0x00]).setGpr 15 64
    (s.Inv ∧ (s.effectiveAddress 0 63).toNat < s.mem.size ∧ Disp.Encodable 63 ∧
      s.RunsBytes [BitVec.ofNat 8 (0xB0 + (0 : Reg).val), BitVec.ofInt 8 63,
        BitVec.ofInt 8 (63 / 256)]) ∧ 55 / 8 ≠ (s.effectiveAddress 0 63).toNat / 8 ∧
      s.mem.size ≤ (s.effectiveAddress 0 64).toNat ∧
      s.mem.size ≤ (s.effectiveAddress 0 (-1)).toNat := by decide
theorem witness_WordAccessBounds :
    (machine []).mem.wf = true ∧ (63 : Word).toNat < (machine []).mem.size ∧
      (machine []).mem.size ≤ (64 : Word).toNat ∧
      (machine []).mem.size ≤ (0xFFFFFFFFFFFFFFFF : Word).toNat := by decide
theorem witness_WordReadIsRotatedBlock :
    let m := (loadMachine []).mem
    m.wf = true ∧ memRead m 0x23 = .ok 0xC2C1C0C7C6C5C4C3 ∧
      memRead m (0x23 &&& ~~~7#64) = .ok 0xC7C6C5C4C3C2C1C0 := ⟨by decide, rfl, rfl⟩
theorem witness_WordReadAfterWrite :
    let m := (loadMachine []).mem
    (m.wf = true ∧ memWrite m 63 5 = .ok (m.setRotatedWord 63 5)) ∧
      (55 : Word).toNat / 8 ≠ (63 : Word).toNat / 8 := ⟨⟨by decide, rfl⟩, by decide⟩
theorem witness_StoreIsSeenByFetch :
    (machine []).Inv ∧ (∃ t, exec (.st 0 63) (machine []) = .next t) ∧
      (56 : Word).toNat = ((machine []).effectiveAddress 0 63).toNat / 8 * 8 +
        (((machine []).effectiveAddress 0 63).toNat % 8 + 1) % 8 := ⟨by decide, ⟨_, rfl⟩, by decide⟩
theorem witness_ImmediateOperationsWriteAcc :
    ((machineAt 61 [0xC0, 0xFF, 0x7F]).Inv ∧ (machineAt 61 [0xC0, 0xFF, 0x7F]).RunsBytes
        [BitVec.ofNat 8 (0xC0 + (0 : Pattern).toNat), (0x7FFF : Literal).setWidth 8,
          ((0x7FFF : Literal) >>> 8).setWidth 8]) ∧
      ((machineAt 61 [0xDF, 0x00, 0x80]).Inv ∧ (machineAt 61 [0xDF, 0x00, 0x80]).RunsBytes
        [BitVec.ofNat 8 (0xD0 + (0xF : Pattern).toNat), (0x8000 : Literal).setWidth 8,
          ((0x8000 : Literal) >>> 8).setWidth 8]) ∧
      ((machineAt 61 [0xEF, 0xFF, 0xFF]).Inv ∧ (machineAt 61 [0xEF, 0xFF, 0xFF]).RunsBytes
        [BitVec.ofNat 8 (0xE0 + (0xF : Pattern).toNat), (0xFFFF : Literal).setWidth 8,
          ((0xFFFF : Literal) >>> 8).setWidth 8]) ∧
      ((machineAt 61 [0xF9, 0x42, 0x69]).Inv ∧ (machineAt 61 [0xF9, 0x42, 0x69]).RunsBytes
        [BitVec.ofNat 8 (0xF0 + (9 : Pattern).toNat), (0x6942 : Literal).setWidth 8,
          ((0x6942 : Literal) >>> 8).setWidth 8]) := by decide
theorem witness_PatternExtensionByLanes : (0 : Nat) < 4 ∧ (3 : Nat) < 4 := by decide
theorem witness_SignExtensionKeepsValue :
    ((16 : Nat) ≤ 16 ∧ (16 : Nat) < 64) ∧ ((16 : Nat) ≤ 63 ∧ (63 : Nat) < 64) ∧
      Disp.Encodable (-32768) ∧ Disp.Encodable 32767 := by decide
theorem witness_LinkRegisterWriters :
    (∃ t, exec .callr mixed = .next t ∧ t.lr ≠ mixed.lr) ∧
      (∃ t, exec .mtlr mixed = .next t ∧ t.lr ≠ mixed.lr) ∧
      (∃ t, exec (.call 4 (-32768)) mixed = .next t ∧ t.lr ≠ mixed.lr) :=
  ⟨⟨_, rfl, by decide⟩, ⟨_, rfl, by decide⟩, ⟨_, rfl, by decide⟩⟩
theorem witness_AccumulatorWriters :
    ∃ t, exec .mfsr mixed = .next t ∧ t.acc ≠ mixed.acc := ⟨_, rfl, by decide⟩
theorem witness_HaltFlagWriters :
    (∃ t, exec .halt mixed = .next t ∧ t.halt ≠ mixed.halt) ∧
      (∃ t, exec .trapNull mixed = .next t ∧ t.halt ≠ mixed.halt) :=
  ⟨⟨_, rfl, by decide⟩, ⟨_, rfl, by decide⟩⟩
theorem witness_OnlyStoreWritesMemory :
    mixed.Inv ∧ ∃ t, exec (.st 0 63) mixed = .next t ∧ t.mem.get 62 ≠ mixed.mem.get 62 :=
  ⟨by decide, _, rfl, by decide⟩
theorem witness_HookInvokedOncePerTrap :
    (∃ t, exec .trapExt mixed = .next t) ∧ (∃ t, exec .nop mixed = .next t) :=
  ⟨⟨_, rfl⟩, ⟨_, rfl⟩⟩
theorem witness_OthersGoOnAtNextInstruction :
    transfersControl (.st 0 63) = false ∧ ∃ t, exec (.st 0 63) mixed = .next t := ⟨rfl, _, rfl⟩
theorem witness_HookMattersToTrapsOnly : trapKindOf (.ld 0 0) = none := rfl
theorem witness_HaltedRunIsFinal :
    ∃ t, drive 2 (machine [0x0F, 0x02]) = .halted t := ⟨_, rfl⟩
theorem witness_FaultedRunIsNotFinal :
    ∃ t f, drive 2 (machineAt 63 [0x0B]) = .faulted t f := ⟨_, _, rfl⟩
theorem witness_DriverAgreesWithPlainRun :
    (∃ t, drive 2 (machine [0x0F]) = .halted t) ∧ (∃ t, drive 1 (machine [0x0B]) = .running t) :=
  ⟨⟨_, rfl⟩, ⟨_, rfl⟩⟩
theorem witness_SelfBranchNeverEnds :
    ((machineAt 61 [0x8F, 0xFD, 0xFF]).Inv ∧ selects 0xF (machineAt 61 [0x8F, 0xFD, 0xFF]).acc = true ∧
        (machineAt 61 [0x8F, 0xFD, 0xFF]).RunsBytes
          [BitVec.ofNat 8 (0x80 + (0xF : Selector).toNat), 0xFD, 0xFF]) ∧
      (machineAt 0 [0x81, 0xFD, 0xFF]).Inv ∧ selects 0x1 (machineAt 0 [0x81, 0xFD, 0xFF]).acc = true ∧
      (machineAt 0 [0x81, 0xFD, 0xFF]).RunsBytes
        [BitVec.ofNat 8 (0x80 + (0x1 : Selector).toNat), 0xFD, 0xFF] := by decide

end Sys2Proof.Tests
end

section
/-! SUPPORT. The outcomes of a step (spec/00_scope.md R10). -/

namespace Sys2Proof.Machine

/-- An instruction completes or ends in a memory fault: no arm of `exec` refuses (R10, R85). -/
theorem exec_next_or_memoryFault (i : Instr) (s : State) :
    (∃ t, exec i s = .next t) ∨ (∃ k a, exec i s = .fault (.memoryFault k a)) := by
  rcases exec_cases i s with hnext | ⟨_, _, _, _, hload⟩ | ⟨_, _, _, _, hstore⟩
  · exact .inl ⟨_, hnext⟩
  · exact .inr ⟨_, _, hload⟩
  · exact .inr ⟨_, _, hstore⟩

/-- Settles O11, by the cases of a step: idle (log 15), a fault in the fetch, or the execution of
the fetched instruction. -/
theorem stepIsNeverRefused : Obligations.StepIsNeverRefused := by
  intro s
  rcases step_cases s with ⟨_, hidle⟩ | ⟨_, ⟨kind, addr⟩, _, hfetch⟩ | ⟨_, i, _, hexec⟩
  · exact .inl ⟨s, hidle⟩
  · exact .inr ⟨kind, addr, hfetch⟩
  · rw [hexec]
    exact exec_next_or_memoryFault i s

end Sys2Proof.Machine
end

section
/-! SUPPORT. Facts the statements about the state and its frame rest on: the condition selectors in
words (spec/30_encoding.md R80, R81), a memory determined by its bytes (spec/10_state.md R28), and,
for one field of the state at a time, which instruction can write it (R22 to R28). -/

namespace Sys2Proof.Machine

open Sys2Proof.Config

/-! ### The condition selectors -/

theorem signBit_eq_decide (v : Word) : signBit v = decide (2 ^ 63 ≤ v.toNat) :=
  BitVec.msb_eq_decide v

theorem restBit_eq_decide (v : Word) : restBit v = decide (v.toNat % 2 ^ 63 ≠ 0) := by
  rw [Bool.eq_iff_iff]
  simp [restBit, ← BitVec.toNat_inj]

/-- The number of a category as R80 gives it: `2*sign + rest`. -/
theorem category_number (v : Word) :
    (category v).number = 2 * (signBit v).toNat + (restBit v).toNat := by
  unfold category
  cases signBit v <;> cases restBit v <;> rfl

/-- The number of a category by the value, in the order in which `selects` asks. -/
theorem category_number_eq_ite (v : Word) :
    (category v).number =
      if v.toNat = 0 then 0 else if v.toNat < 2 ^ 63 then 1 else if v.toNat = 2 ^ 63 then 2
      else 3 := by
  have hlt := v.isLt
  simp only [category_number, signBit_eq_decide, restBit_eq_decide, Bool.toNat, Bool.cond_decide]
  split_ifs <;> omega

/-- The condition result of R81 is the selector read in words. -/
theorem condHolds_eq_selects (c : Selector) (v : Word) : condHolds c v = selects c v := by
  simp only [condHolds, selects, category_number_eq_ite]
  split_ifs <;> rfl

/-! ### A memory is determined by its bytes -/

theorem getCell_cons_self (a : Nat) (v : Byte) (rest : List Host.Cell) :
    getCell ((a, v) :: rest) a = v := if_pos rfl

theorem getCell_cons_of_ne {a b : Nat} (h : b ≠ a) (v : Byte) (rest : List Host.Cell) :
    getCell ((a, v) :: rest) b = getCell rest b := if_neg h

/-- Lists of cells in canonical form that hold the same byte at every address start at the same
address: below its first address a list holds only unlisted bytes, and there it holds another. -/
theorem first_address_le {size lo a b : Nat} {v w : Byte} {cells rest : List Host.Cell}
    (hc : cellsWf size lo ((a, v) :: cells) = true) (hd : cellsWf size lo ((b, w) :: rest) = true)
    (h : ∀ x, getCell ((a, v) :: cells) x = getCell ((b, w) :: rest) x) : b ≤ a := by
  obtain ⟨-, -, hv, -⟩ := cellsWf_cons.mp hc
  obtain ⟨-, hb, hw, hrest⟩ := cellsWf_cons.mp hd
  by_contra hlt
  have hunlisted := getCell_of_lt (not_le.mp hlt) (cellsWf_cons.mpr ⟨le_rfl, hb, hw, hrest⟩)
  exact hv ((getCell_cons_self a v cells).symm.trans ((h a).trans hunlisted))

/-- The canonical form of a list of cells is unique (R28; log 2). -/
theorem cells_eq_of_getCell_eq {size lo : Nat} {cells cells' : List Host.Cell}
    (hc : cellsWf size lo cells = true) (hc' : cellsWf size lo cells' = true)
    (h : ∀ x, getCell cells x = getCell cells' x) : cells = cells' := by
  induction cells generalizing lo cells' with
  | nil =>
    cases cells' with
    | nil => rfl
    | cons c' rest' =>
      obtain ⟨-, -, hv', -⟩ := cellsWf_cons.mp hc'
      exact absurd ((h c'.1).trans (getCell_cons_self _ _ _)).symm hv'
  | cons c rest ih =>
    obtain ⟨a, v⟩ := c
    obtain ⟨-, -, hv, hrest⟩ := cellsWf_cons.mp hc
    cases cells' with
    | nil => exact absurd ((getCell_cons_self a v rest).symm.trans (h a)) hv
    | cons c' rest' =>
      obtain ⟨b, w⟩ := c'
      obtain ⟨-, -, -, hrest'⟩ := cellsWf_cons.mp hc'
      obtain rfl : a = b :=
        le_antisymm (first_address_le hc' hc fun x => (h x).symm) (first_address_le hc hc' h)
      have hvw : v = w := by simpa only [getCell_cons_self] using h a
      have htail : ∀ x, getCell rest x = getCell rest' x := by
        intro x
        by_cases hx : x < a + 1
        · rw [getCell_of_lt hx hrest, getCell_of_lt hx hrest']
        · have hne : x ≠ a := by omega
          simpa only [getCell_cons_of_ne hne] using h x
      rw [hvw, ih hrest hrest' htail]

/-! ### Which instruction writes which field -/

/-- A call writes `pc` and, only when it is taken, `lr` (R156). -/
theorem nextState_call (c : Selector) (d : Disp) (s : State) :
    nextState (.call c d) s =
      (s.setLr (if selects c s.acc then s.pc + 3 else s.lr)).setPc
        (if selects c s.acc then relativeTarget (s.pc + 3) d else s.pc + 3) := by
  simp only [nextState, condHolds_eq_selects]
  split_ifs <;> rfl

/-- An instruction that completes leaves memory alone, or is a `st` whose `MemWrite` succeeded. -/
theorem exec_mem_cases {i : Instr} {s t : State} (h : exec i s = .next t) :
    t.mem = s.mem ∨
      ∃ r d, i = .st r d ∧ memWrite s.mem (s.effectiveAddress r d) s.acc = .ok t.mem := by
  obtain rfl := exec_next h
  cases i
  case st r d =>
    refine .inr ⟨r, d, rfl, ?_⟩
    rcases memWrite_cases s.mem (s.effectiveAddress r d) s.acc with ⟨-, hok⟩ | ⟨hout, -⟩
    · exact hok
    · exact absurd (execSt_inBounds h) (not_lt.mpr hout)
  case call c d => exact .inl (by simp [nextState_call])
  all_goals exact .inl rfl

/-- All that an instruction can do to `lr`: keep it, or write it as `callr`, as `mtlr`, or as a call
that is taken (R23, R156). -/
theorem nextState_lr_cases (i : Instr) (s : State) :
    (nextState i s).lr = s.lr ∨
      (i = .callr ∧ (nextState i s).lr = s.pc + 1) ∨ (i = .mtlr ∧ (nextState i s).lr = s.acc) ∨
        ∃ c d, i = .call c d ∧ selects c s.acc = true ∧ (nextState i s).lr = s.pc + 3 := by
  cases i
  case callr => exact .inr (.inl ⟨rfl, rfl⟩)
  case mtlr => exact .inr (.inr (.inl ⟨rfl, rfl⟩))
  case call c d =>
    by_cases hc : selects c s.acc = true
    · exact .inr (.inr (.inr ⟨c, d, rfl, hc, by simp [nextState_call, hc]⟩))
    · exact .inl (by simp [nextState_call, hc])
  all_goals exact .inl rfl

/-- An instruction that R22 does not list keeps `acc`. -/
theorem nextState_acc_of_not_writesAcc {i : Instr} (h : writesAcc i = false) (s : State) :
    (nextState i s).acc = s.acc := by
  cases i <;> cases h
  case call c d => simp [nextState_call]
  all_goals rfl

/-- A trap instruction invokes the hook with its own kind and goes on at `pc + 1` (R186). -/
theorem nextState_of_trapKindOf {i : Instr} {k : TrapKind} (h : trapKindOf i = some k) (s : State) :
    nextState i s = (s.invokeHook k).setPc s.afterShort := by
  cases i <;> cases h <;> rfl

/-- An instruction that is neither `halt` nor a trap keeps the halt flag (R26). -/
theorem nextState_halt_of_not_trap {i : Instr} (htrap : trapKindOf i = none) (hne : i ≠ .halt)
    (s : State) : (nextState i s).halt = s.halt := by
  cases i <;> cases htrap
  case halt => exact absurd rfl hne
  case call c d => simp [nextState_call]
  all_goals rfl

end Sys2Proof.Machine
end

section
/-! SUPPORT. The statements about the state of the core and what each instruction may change in it
(spec/10_state.md R22 to R31). -/

namespace Sys2Proof.Machine

/-- Settles O14: a step is idle or runs an instruction, and the only instruction that writes memory
does so by `MemWrite`, which keeps the canonical form and the capacity. -/
theorem stepKeepsMemoryWellFormed : Obligations.StepKeepsMemoryWellFormed := by
  intro s t hinv hstep
  rcases step_cases s with ⟨_, hidle⟩ | ⟨_, _, _, hfault⟩ | ⟨_, i, _, hexec⟩
  · cases hidle.symm.trans hstep
    exact ⟨hinv, rfl⟩
  · cases hfault.symm.trans hstep
  · rcases exec_mem_cases (hexec.symm.trans hstep) with hmem | ⟨r, d, -, hwrite⟩
    · simp only [State.Inv, hmem]
      exact ⟨hinv, trivial⟩
    · obtain ⟨-, hsize, hwf, -⟩ := memWrite_ok hinv hwrite
      exact ⟨hwf, hsize⟩

/-- Settles O15, by the uniqueness of the canonical list of cells. -/
theorem equalBytesEqualMemory : Obligations.EqualBytesEqualMemory := by
  rintro ⟨size, cells⟩ ⟨_, cells'⟩ hm hn rfl hbytes
  obtain ⟨-, hcells⟩ := Memory.wf_iff.mp hm
  obtain ⟨-, hcells'⟩ := Memory.wf_iff.mp hn
  exact congrArg (Memory.mk size) (cells_eq_of_getCell_eq hcells hcells' hbytes)

/-- Settles O41, by what an instruction can do to `lr`. -/
theorem linkRegisterWriters : Obligations.LinkRegisterWriters := by
  intro i s t hexec hlr
  obtain rfl := exec_next hexec
  exact (nextState_lr_cases i s).resolve_left hlr

/-- Settles O42: an instruction that the list leaves out keeps `acc`. -/
theorem accumulatorWriters : Obligations.AccumulatorWriters := by
  intro i s t hexec hacc
  obtain rfl := exec_next hexec
  by_contra hnot
  exact hacc (nextState_acc_of_not_writesAcc (eq_false_of_ne_true hnot) s)

/-- Settles O43: a trap sets `halt` exactly when its hook answers `Halt`, and of the other
instructions only `halt` writes the flag. -/
theorem haltFlagWriters : Obligations.HaltFlagWriters := by
  intro i s t hexec hhalt
  obtain rfl := exec_next hexec
  cases htrap : trapKindOf i with
  | none =>
    by_cases hi : i = .halt
    · subst hi
      exact ⟨rfl, .inl rfl⟩
    · exact absurd (nextState_halt_of_not_trap htrap hi s) hhalt
  | some k =>
    rw [nextState_of_trapKindOf htrap, State.setPc_halt, State.invokeHook_halt] at hhalt ⊢
    have hanswer : s.hookAnswer k = .halt := by
      by_contra hcontinue
      simp [hcontinue] at hhalt
    exact ⟨by simp [hanswer], .inr ⟨k, rfl, hanswer⟩⟩

/-- Settles O44: a `MemWrite` that succeeds changes no byte outside the aligned block. -/
theorem onlyStoreWritesMemory : Obligations.OnlyStoreWritesMemory := by
  intro i s t a hinv hexec hbyte
  rcases exec_mem_cases hexec with hmem | ⟨r, d, hi, hwrite⟩
  · exact absurd (by rw [hmem]) hbyte
  · obtain ⟨-, -, -, hget⟩ := memWrite_ok hinv hwrite
    refine ⟨r, d, hi, ?_⟩
    by_contra hblock
    exact hbyte ((hget a).trans (if_neg hblock))

/-- Settles O1, field by field; a general register is an entry of a vector of zeros, and memory
lists no byte (log 2). -/
theorem resetClearsEveryRegister : Obligations.ResetClearsEveryRegister := by
  refine ⟨rfl, rfl, rfl, rfl, fun r => ?_, rfl, fun _ => rfl⟩
  simp [State.readGpr, State.reset]

/-- Settles O2: the default capacity is admitted (log 1) and the empty list of cells is canonical. -/
theorem resetMemoryWellFormed : Obligations.ResetMemoryWellFormed :=
  Memory.wf_iff.mpr ⟨by decide, rfl⟩

end Sys2Proof.Machine
end

section
/-! SUPPORT. Facts the statements about the word access rest on: when a word access succeeds
(spec/20_memory.md R47), the bytes of a rotated word and of an aligned index (R43, R44, R46), and
which bytes a read sees after a write (R45). -/

namespace Sys2Proof.Machine

open Sys2Proof.Config

/-! ### When a word access succeeds -/

/-- Memory is made of whole aligned blocks, so the block of an index is in bounds with it (R47). -/
theorem lt_size_iff_block_le {m : Memory} (hw : m.wf = true) (idx : Word) :
    idx.toNat < m.size ↔ idx.toNat / 8 * 8 + 7 ≤ m.size - 1 := by
  obtain ⟨hpos, hmod, -⟩ := sizeWf_iff.mp (Memory.wf_iff.mp hw).1
  rw [wordBytes] at hmod
  omega

/-- A memory read that succeeds gives the rotated word (R44). -/
theorem memRead_ok {m : Memory} {idx v : Word} (h : memRead m idx = .ok v) :
    v = m.rotatedWord idx := by
  rcases memRead_cases m idx with ⟨-, hok⟩ | ⟨-, herr⟩
  · cases h.symm.trans hok
    rfl
  · cases h.symm.trans herr

/-- A memory read depends on the capacity and the eight bytes of the block alone (R44, R47). -/
theorem memRead_congr {m m' : Memory} {idx : Word} (hsize : m'.size = m.size)
    (hbytes : ∀ i, i < 8 → m'.get (lanePos idx i) = m.get (lanePos idx i)) :
    memRead m' idx = memRead m idx := by
  have hbounds : m'.inBounds idx = m.inBounds idx := by simp only [Memory.inBounds, hsize]
  have hword : m'.rotatedWord idx = m.rotatedWord idx := wordOf_congr hbytes
  rw [memRead, hbounds, hword, memRead]

/-! ### The rotation -/

theorem lanePos_eq (idx : Word) (i : Nat) :
    lanePos idx i = idx.toNat / 8 * 8 + (idx.toNat % 8 + i) % 8 := by
  simp only [lanePos, blockBase, blockOffset, wordBytes, Nat.mul_comm]

/-- Clearing the three low bits rounds an index down to the base of its block (R43). -/
theorem toNat_and_not_seven (idx : Word) : (idx &&& ~~~7#64).toNat = idx.toNat / 8 * 8 := by
  have hmask : ∀ j, j < 64 → (~~~7#64).getLsbD j = !decide (j < 3) := by decide
  have hshift : idx &&& ~~~7#64 = (idx >>> 3) <<< 3 := by
    apply BitVec.eq_of_getLsbD_eq
    intro j hj
    rw [BitVec.getLsbD_and, hmask j hj, BitVec.getLsbD_shiftLeft, BitVec.getLsbD_ushiftRight]
    by_cases h3 : j < 3
    · simp [h3]
    · simp [h3, hj, Nat.add_sub_of_le (not_lt.mp h3)]
  have hlt := idx.isLt
  rw [hshift, BitVec.toNat_shiftLeft, BitVec.toNat_ushiftRight, Nat.shiftLeft_eq,
    Nat.shiftRight_eq_div_pow]
  omega

/-- The lanes of an index are those of the base of its block, turned by the offset (R43, R44). -/
theorem lanePos_and_not_seven (idx : Word) (i : Nat) :
    lanePos (idx &&& ~~~7#64) ((idx.toNat % 8 + i) % 8) = lanePos idx i := by
  simp only [lanePos_eq, toNat_and_not_seven]
  omega

/-- Rotating a word right by whole bytes turns its bytes. -/
theorem byteOf_rotateRight (v : Word) {k i : Nat} (hk : k < 8) (hi : i < 8) :
    byteOf (v.rotateRight (8 * k)) i = byteOf v ((k + i) % 8) := by
  apply BitVec.eq_of_getLsbD_eq
  intro j hj
  have hmod : 8 * k % 64 = 8 * k := Nat.mod_eq_of_lt (by omega)
  rw [getLsbD_byteOf, getLsbD_byteOf, BitVec.getLsbD_rotateRight, hmod]
  congr 1
  by_cases hwrap : 8 * i + j < 64 - 8 * k
  · have hbit : 8 * k + (8 * i + j) = 8 * ((k + i) % 8) + j := by omega
    simp only [hwrap, hbit, decide_true, cond_true]
  · have hbit : 8 * i + j - (64 - 8 * k) = 8 * ((k + i) % 8) + j := by omega
    have hlt : 8 * i + j < 64 := by omega
    simp only [hwrap, hbit, hlt, decide_true, decide_false, cond_false, Bool.true_and]

/-- The word at an index is the word at the base of its block, rotated right by 8 times the offset
(R46). -/
theorem rotatedWord_eq_rotateRight (m : Memory) (idx : Word) :
    m.rotatedWord idx =
      (m.rotatedWord (idx &&& ~~~7#64)).rotateRight (8 * (idx.toNat % 8)) := by
  rw [← wordOf_byteOf (BitVec.rotateRight _ _)]
  refine wordOf_congr fun i hi => ?_
  rw [byteOf_rotateRight _ (Nat.mod_lt _ (by decide)) hi, Memory.rotatedWord,
    byteOf_wordOf _ (Nat.mod_lt _ (by decide)), lanePos_and_not_seven]

/-! ### Reading after writing -/

/-- After a memory write, lane `i` of the index holds byte `i` of the word (R45). -/
theorem get_lanePos_of_memWrite {m m' : Memory} {idx v : Word} (hw : m.wf = true)
    (h : memWrite m idx v = .ok m') {i : Nat} (hi : i < 8) :
    m'.get (lanePos idx i) = byteOf v i := by
  obtain ⟨-, -, -, hget⟩ := memWrite_ok hw h
  obtain ⟨hblock, hlane⟩ := (lanePos_eq_iff (idx := idx) hi).mp rfl
  rw [hget, if_pos hblock, hlane]

/-- A store that completes is a memory write that succeeds (R161). -/
theorem memWrite_of_exec_st {r : Reg} {d : Disp} {s t : State} (h : exec (.st r d) s = .next t) :
    memWrite s.mem (s.effectiveAddress r d) s.acc = .ok t.mem := by
  obtain rfl := exec_next h
  rcases memWrite_cases s.mem (s.effectiveAddress r d) s.acc with ⟨-, hok⟩ | ⟨hout, -⟩
  · exact hok
  · exact absurd (execSt_inBounds h) (not_lt.mpr hout)

end Sys2Proof.Machine
end

section
/-! SUPPORT. The statements about the word access and what the fetch sees of it (spec/20_memory.md
R43 to R58). -/

namespace Sys2Proof.Machine

/-- Settles O33: reads that succeed give rotated words, and the two differ by the rotation. -/
theorem wordReadIsRotatedBlock : Obligations.WordReadIsRotatedBlock := by
  intro m idx v block _ hread hbase
  obtain rfl := memRead_ok hread
  obtain rfl := memRead_ok hbase
  exact rotatedWord_eq_rotateRight m idx

/-- Settles O34: at the index every lane holds its byte of the word, and no lane of another block is
written. -/
theorem wordReadAfterWrite : Obligations.WordReadAfterWrite := by
  intro m m' idx v hw hwrite
  obtain ⟨hbound, hsize, -, hget⟩ := memWrite_ok hw hwrite
  refine ⟨?_, fun other hother => memRead_congr hsize fun i _ => ?_⟩
  · have hword : m'.rotatedWord idx = v :=
      (wordOf_congr fun _ hi => get_lanePos_of_memWrite hw hwrite hi).trans (wordOf_byteOf v)
    rcases memRead_cases m' idx with ⟨-, hok⟩ | ⟨hout, -⟩
    · rw [hok, hword]
    · exact absurd (hsize ▸ hbound) (not_lt.mpr hout)
  · rw [hget, if_neg (lanePos_div other i ▸ hother)]

/-- Settles O35: the store has put byte `i` of `acc` at lane `i`, which is in bounds, and the fetch
reads the byte at the literal address. -/
theorem storeIsSeenByFetch : Obligations.StoreIsSeenByFetch := by
  intro s t r d hinv hexec i hi a ha
  have hwrite := memWrite_of_exec_st hexec
  obtain ⟨hbound, hsize, -, -⟩ := memWrite_ok hinv hwrite
  have hlane : a.toNat = lanePos (s.effectiveAddress r d) i := ha.trans (lanePos_eq _ i).symm
  rcases fetchByte_cases t.mem a with ⟨-, hok⟩ | ⟨hout, -⟩
  · rw [hok, hlane, get_lanePos_of_memWrite hinv hwrite hi, byteOf]
  · have hin := lanePos_lt_size i hinv hbound
    omega

/-- Settles O32: memory is made of whole blocks, and an access asks only whether its index is below
the capacity. -/
theorem wordAccessBounds : Obligations.WordAccessBounds := by
  intro m idx v hw
  refine ⟨lt_size_iff_block_le hw idx, fun hin => ?_, fun hout => ?_⟩
  · have hnot := not_le.mpr hin
    exact ⟨⟨_, ((memRead_cases m idx).resolve_right (mt And.left hnot)).2⟩,
      _, ((memWrite_cases m idx v).resolve_right (mt And.left hnot)).2⟩
  · have hnot := not_lt.mpr hout
    exact ⟨((memRead_cases m idx).resolve_left (mt And.left hnot)).2,
      ((memWrite_cases m idx v).resolve_left (mt And.left hnot)).2⟩

end Sys2Proof.Machine
end

section
/-! SUPPORT. The opcode map read in both directions (spec/30_encoding.md R71 to R74, R86, R87): what
an encoded instruction decodes to, all that the decoder can answer, and how the instruction it reads
is encoded. -/

namespace Sys2Proof

/-! ### From the instruction to its bytes and back -/

/-- The instruction of an encoded opcode byte is the entry of the opcode map (R71, R86). -/
theorem instrOf_opcodeByte (op arg : Nibble) (imm : Literal) :
    instrOf (opcodeByte op arg) imm = (opcodeTable arg imm)[op.toNat]'op.isLt := by
  simp only [instrOf, opField_opcodeByte, argField_opcodeByte]

theorem decode_shortBytes {op : Nibble} (h : op.getLsbD 3 = false) (arg : Nibble)
    (rest : List Byte) :
    decode (shortBytes op arg ++ rest) = .ok ((opcodeTable arg 0)[op.toNat]'op.isLt, rest) := by
  rw [← instrOf_opcodeByte]
  exact decode_short ((isLongOpcode_opcodeByte op arg).trans h) rest

theorem decode_longBytes {op : Nibble} (h : op.getLsbD 3 = true) (arg : Nibble) (imm : Literal)
    (rest : List Byte) :
    decode (longBytes op arg imm ++ rest) =
      .ok ((opcodeTable arg imm)[op.toNat]'op.isLt, rest) := by
  have hlong := decode_long ((isLongOpcode_opcodeByte op arg).trans h) (imm.extractLsb' 0 8)
    (imm.extractLsb' 8 8) rest
  rwa [literalOfBytes_extract, instrOf_opcodeByte] at hlong

/-! ### From the bytes to the instruction and back -/

/-- All that a decode that succeeds can have read (R72): one byte, or three. -/
theorem decode_ok_cases {bytes rest : List Byte} {i : Instr} (h : decode bytes = .ok (i, rest)) :
    (∃ b0, isLongOpcode b0 = false ∧ bytes = b0 :: rest ∧ i = instrOf b0 0) ∨
      ∃ b0 b1 b2, isLongOpcode b0 = true ∧ bytes = b0 :: b1 :: b2 :: rest ∧
        i = instrOf b0 (literalOfBytes b1 b2) := by
  match bytes with
  | [] => cases h
  | b0 :: tail =>
    cases hl : isLongOpcode b0 with
    | false =>
      cases (decode_short hl tail).symm.trans h
      exact .inl ⟨b0, hl, rfl, rfl⟩
    | true =>
      match tail with
      | b1 :: b2 :: rest' =>
        cases (decode_long hl b1 b2 rest').symm.trans h
        exact .inr ⟨b0, b1, b2, hl, rfl, rfl⟩
      | [] | [b1] => simp [decode, hl] at h

theorem encode_systemTable (arg : Nibble) :
    encode (systemTable[arg.toNat]'arg.isLt) = shortBytes 0 arg := by
  revert arg; decide

theorem wellFormed_systemTable (arg : Nibble) :
    (systemTable[arg.toNat]'arg.isLt).wellFormed = true := by
  revert arg; decide

/-- Every entry of the opcode map is well-formed (R87, R90). -/
theorem wellFormed_opcodeTable (op arg : Nibble) (imm : Literal) :
    ((opcodeTable arg imm)[op.toNat]'op.isLt).wellFormed = true := by
  obtain ⟨op⟩ := op
  fin_cases op
  · exact wellFormed_systemTable arg
  all_goals simp [opcodeTable, Instr.wellFormed, dispOfLiteral_encodable imm]

/-- Every entry of the opcode map is encoded by its group, its argument nibble and, in the groups of
format L, its literal (R72, R73, R86). -/
theorem encode_opcodeTable (op arg : Nibble) (imm : Literal) :
    encode ((opcodeTable arg imm)[op.toNat]'op.isLt) =
      if op.getLsbD 3 then longBytes op arg imm else shortBytes op arg := by
  obtain ⟨op⟩ := op
  fin_cases op
  · exact encode_systemTable arg
  all_goals simp [opcodeTable, encode]

theorem encode_instrOf (b0 : Byte) (imm : Literal) :
    encode (instrOf b0 imm) =
      if isLongOpcode b0 then [b0, imm.extractLsb' 0 8, imm.extractLsb' 8 8] else [b0] := by
  have hentry := encode_opcodeTable (opField b0) (argField b0) imm
  rw [longBytes, shortBytes, opcodeByte_fields] at hentry
  exact hentry

/-! ### Lengths -/

/-- An instruction is as long as its encoding (R73). -/
theorem length_encode (i : Instr) : (encode i).length = i.length := by
  cases i <;> rfl

theorem length_instrOf (b0 : Byte) (imm : Literal) :
    (instrOf b0 imm).length = if isLongOpcode b0 then 3 else 1 := by
  rw [← length_encode, encode_instrOf]
  split_ifs <;> rfl

end Sys2Proof
end

section
/-! SUPPORT. What is fetched where the bytes of an instruction stand in memory, and what placing
bytes at `pc` does (spec/30_encoding.md R72, spec/40_step_cycle.md R101; log 13). -/

namespace Sys2Proof.Machine

open Sys2Proof.Config

/-! ### Fetching bytes that stand in memory -/

/-- Where bytes that decode stand in memory, in bounds and below the end of the address range, the
fetch gives the instruction they decode to (R101). -/
theorem fetchInstr_of_bytesAt {m : Memory} {pc : Word} {bytes rest : List Byte} {i : Instr}
    (hsize : pc.toNat + bytes.length ≤ m.size) (hwrap : pc.toNat + bytes.length ≤ 2 ^ 64)
    (hbytes : m.bytesAt pc.toNat bytes.length = bytes) (hdec : decode bytes = .ok (i, rest)) :
    fetchInstr m pc = .ok i := by
  rcases decode_ok_cases hdec with ⟨b0, hs, rfl, rfl⟩ | ⟨b0, b1, b2, hl, rfl, rfl⟩
  · simp only [List.length_cons, Memory.bytesAt, List.cons.injEq] at hsize hbytes
    obtain ⟨h0, -⟩ := hbytes
    rw [fetchInstr_short (by omega) (h0 ▸ hs), h0]
  · simp only [List.length_cons, Memory.bytesAt, List.cons.injEq] at hsize hwrap hbytes
    obtain ⟨h0, h1, h2, -⟩ := hbytes
    have hpc1 : (pc + 1).toNat = pc.toNat + 1 :=
      BitVec.toNat_add_of_lt (y := 1) (show _ + 1 < _ by omega)
    have hpc2 : (pc + 2).toNat = pc.toNat + 2 :=
      BitVec.toNat_add_of_lt (y := 2) (show _ + 2 < _ by omega)
    rw [fetchInstr_long (by omega) (h0 ▸ hl) (by omega) (by omega), hpc1, hpc2, h0, h1, h2]

/-- A running core at whose `pc` stand bytes that decode executes the instruction they decode to
(R101). -/
theorem step_of_runsBytes {s : State} {bytes rest : List Byte} {i : Instr}
    (hwrap : s.pc.toNat + bytes.length ≤ 2 ^ 64) (hruns : s.RunsBytes bytes)
    (hdec : decode bytes = .ok (i, rest)) : step s = exec i s := by
  obtain ⟨hhalt, hsize, hbytes⟩ := hruns
  simp only [step, hhalt, fetchInstr_of_bytesAt hsize hwrap hbytes hdec, Bool.false_eq_true,
    if_false]

/-- The admitted capacities leave no room for the address range to wrap (R5, R211). -/
theorem size_le_of_wf {m : Memory} (hw : m.wf = true) : m.size ≤ 2 ^ 64 := by
  obtain ⟨-, -, hmax⟩ := sizeWf_iff.mp (Memory.wf_iff.mp hw).1
  exact hmax.trans (by decide)

theorem eight_le_size_of_wf {m : Memory} (hw : m.wf = true) : 8 ≤ m.size := by
  obtain ⟨hpos, hmod, -⟩ := sizeWf_iff.mp (Memory.wf_iff.mp hw).1
  rw [wordBytes] at hmod
  omega

/-! ### Placing bytes at `pc` -/

theorem bytesAt_setBytes {m : Memory} {a : Nat} {bs : List Byte} (h : a + bs.length ≤ m.size)
    (hw : m.wf = true) : (m.setBytes a bs).bytesAt a bs.length = bs := by
  induction bs generalizing m a with
  | nil => rfl
  | cons v rest ih =>
    have hhead : (m.setBytes a (v :: rest)).get a = v := by simp [Memory.get_setBytes h hw]
    simp only [List.length_cons] at h
    have htail := ih (m := m.set a v) (a := a + 1) (by rw [Memory.set_size]; omega)
      (Memory.set_wf (by omega) hw)
    rw [List.length_cons, Memory.bytesAt, hhead]
    exact congrArg (v :: ·) htail

/-- Bytes that memory has room for fit where `placeAtPc` puts them (log 13). -/
theorem placeAtPc_fits {s : State} {bytes : List Byte} (h : bytes.length ≤ s.mem.size) :
    (s.placeAtPc bytes).pc.toNat + bytes.length ≤ s.mem.size := by
  simp only [State.placeAtPc]
  split_ifs with hfit
  · exact hfit
  · simpa using h

/-- After bytes are placed the core is running at them (log 13). -/
theorem runsBytes_placeAtPc {s : State} {bytes : List Byte} (hinv : s.Inv)
    (h : bytes.length ≤ s.mem.size) : (s.placeAtPc bytes).RunsBytes bytes := by
  have hfit := placeAtPc_fits h
  exact ⟨rfl, hfit.trans (Memory.setBytes_size ..).ge, bytesAt_setBytes hfit hinv⟩

theorem decode_bytesOfTableWord {nbits w : Nat} {i : Instr} (h : decodeTableWord nbits w = some i) :
    ∃ rest, decode (bytesOfTableWord nbits w) = .ok (i, rest) := by
  unfold decodeTableWord at h
  split at h
  next rest hdec =>
    cases h
    exact ⟨rest, hdec⟩
  next => cases h

end Sys2Proof.Machine
end

section
/-! SUPPORT. Facts the statements about immediates and conditions rest on: each step of the pattern
extension lane by lane (spec/30_encoding.md R77, R78), the value of the sign-extended immediate
(R76), and the categories by the signed value (R80, R81). -/

namespace Sys2Proof.Machine

/-! ### The pattern-extended immediate by lanes -/

/-- Bit `b` of lane `j` is bit `16j + b` of the value (R7). -/
theorem getLsbD_lane (v : Word) (j b : Nat) :
    (lane v j).getLsbD b = (decide (b < 16) && v.getLsbD (16 * j + b)) :=
  BitVec.getLsbD_extractLsb' ..

theorem lane_whenSet (bit : Bool) (f : Word → Word) (v : Word) (j : Nat) :
    lane (whenSet bit f v) j = if bit then lane (f v) j else lane v j :=
  apply_ite (lane · j) _ _ _

/-- A literal widened to a word stands in lane 0 (R77 step 1). -/
theorem lane_setWidth (i : Literal) (j : Nat) :
    lane (i.setWidth 64) j = if j = 0 then i else 0 := by
  apply BitVec.eq_of_getLsbD_eq
  intro b hb
  rw [getLsbD_lane]
  split_ifs with hj
  · have hin : b < 64 := by omega
    simp [hj, hb, hin]
  · have hout : 16 ≤ 16 * j + b := by omega
    simp [BitVec.getLsbD_of_ge i _ hout]

theorem lane_or (v w : Word) (j : Nat) : lane (v ||| w) j = lane v j ||| lane w j :=
  BitVec.extractLsb'_or ..

theorem or_laneFill (x : Literal) (bit : Bool) :
    x ||| laneFill bit = if bit then laneFill true else x := by
  cases bit
  · exact BitVec.or_zero
  · exact BitVec.or_allOnes

/-- R77 step 2 by lanes. -/
theorem lane_fillLane1 (v : Word) {j : Nat} (hj : j < 4) :
    lane (fillLane1 v) j = if j = 1 then laneFill true else lane v j := by
  have hmask : ∀ k < 4, lane 0x00000000FFFF0000#64 k = laneFill (decide (k = 1)) := by decide
  simp only [fillLane1, lane_or, hmask j hj, or_laneFill, decide_eq_true_eq]

/-- R77 step 4 by lanes. -/
theorem lane_fillHighHalf (v : Word) {j : Nat} (hj : j < 4) :
    lane (fillHighHalf v) j = if 2 ≤ j then laneFill true else lane v j := by
  have hmask : ∀ k < 4, lane 0xFFFFFFFF00000000#64 k = laneFill (decide (2 ≤ k)) := by decide
  simp only [fillHighHalf, lane_or, hmask j hj, or_laneFill, decide_eq_true_eq]

theorem getLsbD_swapLowLanes (v : Word) {k : Nat} (hk : k < 64) :
    (swapLowLanes v).getLsbD k =
      v.getLsbD (if k < 16 then 16 + k else if k < 32 then k - 16 else k) := by
  simp only [swapLowLanes, BitVec.getLsbD_append, BitVec.getLsbD_extractLsb']
  by_cases hlane0 : k < 16
  · simp only [hlane0, if_true, decide_true, Bool.true_and]
  by_cases hlane1 : k < 32
  · have hin : k - 16 < 16 := by omega
    simp only [hlane0, hlane1, hin, if_true, if_false, decide_true, Bool.true_and, Nat.zero_add]
  · have hout : ¬k - 16 < 16 := by omega
    have hin : k - 16 - 16 < 32 := by omega
    have hbit : 32 + (k - 16 - 16) = k := by omega
    simp only [hlane0, hlane1, hout, hin, hbit, if_false, decide_true, Bool.true_and]

theorem getLsbD_swapHalves (v : Word) {k : Nat} (hk : k < 64) :
    (swapHalves v).getLsbD k = v.getLsbD ((k + 32) % 64) := by
  simp only [swapHalves, BitVec.getLsbD_append, BitVec.getLsbD_extractLsb']
  by_cases hlow : k < 32
  · have hbit : (k + 32) % 64 = 32 + k := by omega
    simp only [hlow, hbit, if_true, decide_true, Bool.true_and]
  · have hbit : (k + 32) % 64 = 0 + (k - 32) := by omega
    have hin : k - 32 < 32 := by omega
    simp only [hlow, hin, hbit, if_false, decide_true, Bool.true_and]

/-- R77 step 3 by lanes. -/
theorem lane_swapLowLanes (v : Word) {j : Nat} (hj : j < 4) :
    lane (swapLowLanes v) j = lane v (if j < 2 then 1 - j else j) := by
  apply BitVec.eq_of_getLsbD_eq
  intro b hb
  rw [getLsbD_lane, getLsbD_lane, getLsbD_swapLowLanes v (by omega)]
  congr 2
  split_ifs <;> omega

/-- R77 step 5 by lanes. -/
theorem lane_swapHalves (v : Word) {j : Nat} (hj : j < 4) :
    lane (swapHalves v) j = lane v ((j + 2) % 4) := by
  apply BitVec.eq_of_getLsbD_eq
  intro b hb
  rw [getLsbD_lane, getLsbD_lane, getLsbD_swapHalves v (by omega)]
  congr 2
  omega

/-- R77 steps 1 and 2: the literal stands in lane 0, and only lane 1 may be filled. -/
theorem lane_afterFill (bit0 : Bool) (i : Literal) {j : Nat} (hj : j < 4) :
    lane (whenSet bit0 fillLane1 (i.setWidth 64)) j =
      if j = 0 then i else if j < 2 then laneFill bit0 else 0 := by
  rw [lane_whenSet, lane_fillLane1 _ hj, lane_setWidth]
  cases bit0 <;> interval_cases j <;> rfl

/-- R77 steps 1 to 3: the swap puts the literal in lane 0 or 1. -/
theorem lane_afterSwapLow (bit0 bit2 : Bool) (i : Literal) {j : Nat} (hj : j < 4) :
    lane (whenSet bit2 swapLowLanes (whenSet bit0 fillLane1 (i.setWidth 64))) j =
      if j = bit2.toNat then i else if j < 2 then laneFill bit0 else 0 := by
  rw [lane_whenSet, lane_swapLowLanes _ hj, lane_afterFill _ _ hj,
    lane_afterFill _ _ (by split_ifs <;> omega)]
  cases bit2 <;> interval_cases j <;> rfl

/-- R77 steps 1 to 4: the high half is filled by one bit. -/
theorem lane_afterFillHigh (bit0 bit1 bit2 : Bool) (i : Literal) {j : Nat} (hj : j < 4) :
    lane (whenSet bit1 fillHighHalf
        (whenSet bit2 swapLowLanes (whenSet bit0 fillLane1 (i.setWidth 64)))) j =
      if j = bit2.toNat then i else if j < 2 then laneFill bit0 else laneFill bit1 := by
  rw [lane_whenSet, lane_fillHighHalf _ hj, lane_afterSwapLow _ _ _ hj]
  cases bit1 <;> cases bit2 <;> interval_cases j <;> rfl

/-! ### The sign-extended immediate -/

/-- The sign-extended immediate keeps the signed value (R76). -/
theorem toInt_simm (imm : Literal) : (simm imm).toInt = imm.toInt :=
  BitVec.toInt_signExtend_of_le (by decide)

/-- Bits 16 to 63 of the sign-extended immediate are bit 15 of the literal (R76). -/
theorem getLsbD_simm_of_ge (imm : Literal) {j : Nat} (h16 : 16 ≤ j) (h64 : j < 64) :
    (simm imm).getLsbD j = imm.getLsbD 15 := by
  rw [simm, BitVec.getLsbD_signExtend, if_neg (not_lt.mpr h16)]
  simp [h64, BitVec.msb_eq_getLsbD_last]

/-- The immediate of an encodable displacement is the displacement (R76, R90). -/
theorem simmOfDisp_eq_ofInt {d : Disp} (h : Disp.Encodable d) :
    simmOfDisp d = BitVec.ofInt 64 d := by
  have hd : (literalOfDisp d).toInt = d := dispOfLiteral_literalOfDisp h
  obtain ⟨hlo, hhi⟩ := h
  rw [← BitVec.toInt_inj, simmOfDisp, toInt_simm, hd, BitVec.toInt_ofInt]
  exact (Int.bmod_eq_of_le (by omega) (by omega)).symm

/-! ### The condition categories -/

/-- `sign` is set for the negative values (R80). -/
theorem signBit_iff (v : Word) : signBit v = true ↔ v.toInt < 0 := by
  rw [signBit, ← BitVec.msb_eq_getLsbD_last, BitVec.msb_eq_toInt, decide_eq_true_iff]

/-- `rest` is clear for the two values with no bit below bit 63: 0 and −2^63 (R80). -/
theorem restBit_iff (v : Word) : restBit v = true ↔ v.toInt ≠ 0 ∧ v.toInt ≠ -2 ^ 63 := by
  have hlt := v.isLt
  rw [restBit_eq_decide, decide_eq_true_iff, BitVec.toInt_eq_toNat_cond]
  split_ifs <;> omega

/-- Each category with the signed values it stands for, by `sign` and `rest` (R80). -/
theorem category_cases (v : Word) :
    (category v = .zero ∧ v.toInt = 0) ∨ (category v = .positive ∧ 0 < v.toInt) ∨
      (category v = .minimum ∧ v.toInt = -2 ^ 63) ∨
        (category v = .negative ∧ -2 ^ 63 < v.toInt ∧ v.toInt < 0) := by
  have hlo := BitVec.le_toInt v
  have hsign := signBit_iff v
  have hrest := restBit_iff v
  unfold category
  generalize signBit v = sign, restBit v = rest at hsign hrest ⊢
  cases sign <;> cases rest <;>
    simp only [true_iff, false_iff, Bool.false_eq_true] at hsign hrest
  · exact .inl ⟨rfl, by omega⟩
  · exact .inr (.inl ⟨rfl, by omega⟩)
  · exact .inr (.inr (.inl ⟨rfl, by omega⟩))
  · exact .inr (.inr (.inr ⟨rfl, by omega⟩))

/-- The number of a category by the unsigned value: `2*sign + rest` (R80). -/
theorem category_number_eq_sign_rest (v : Word) :
    (category v).number =
      2 * (if v.toNat < 2 ^ 63 then 0 else 1) + (if v.toNat % 2 ^ 63 = 0 then 0 else 1) := by
  simp only [category_number, signBit_eq_decide, restBit_eq_decide, Bool.toNat, Bool.cond_decide]
  split_ifs <;> omega

/-- Complementing a selector complements the result (R82). -/
theorem condHolds_xor_allOnes (c : Selector) (v : Word) :
    condHolds (c ^^^ 0xF) v = !condHolds c v := by
  simp only [condHolds]
  cases category v <;> simp [Category.number]

end Sys2Proof.Machine
end

section
/-! SUPPORT. The statements about the encoding, the immediates and the conditions
(spec/30_encoding.md R71 to R90). -/

namespace Sys2Proof.Machine

/-- Settles O5, by the kind of operand: a displacement survives the literal because it is encodable,
a register number survives the argument nibble, and selectors, patterns and literals stand in the
bytes as they are. -/
theorem decodeOfEncode : Obligations.DecodeOfEncode := by
  intro i rest hwf
  cases i
  case b c d | call c d | ld r d | st r d =>
    have hd := dispOfLiteral_literalOfDisp (of_decide_eq_true hwf)
    rw [encode, decode_longBytes rfl]
    simp [opcodeTable, hd]
  case mf r | mt r | and r | or r | xor r | add r =>
    rw [encode, decode_shortBytes rfl]
    simp [opcodeTable]
  case andi | ori | xori | addi => exact decode_longBytes rfl _ _ rest
  all_goals exact decode_shortBytes rfl _ rest

/-- Settles O6: the instruction is an entry of the opcode map, which is encoded by the one or three
bytes that the decoder has read. -/
theorem encodeOfDecode : Obligations.EncodeOfDecode := by
  intro bytes rest i h
  rcases decode_ok_cases h with ⟨b0, hs, rfl, rfl⟩ | ⟨b0, b1, b2, hl, rfl, rfl⟩
  · exact ⟨wellFormed_opcodeTable .., by simp [encode_instrOf, hs]⟩
  · exact ⟨wellFormed_opcodeTable .., by simp [encode_instrOf, hl]⟩

/-- Settles O7: format L is the upper half of the opcode bytes, and each format fixes how many bytes
are read and the length. -/
theorem everyOpcodeByteDecodes : Obligations.EveryOpcodeByteDecodes := by
  intro b0 b1 b2 rest
  cases hl : isLongOpcode b0 with
  | false =>
    have hlt : b0.toNat < 128 := not_le.mp (mt (isLongOpcode_iff b0).mpr (by simp [hl]))
    exact ⟨_, by rw [decode_short hl, if_pos hlt], by simp [length_instrOf, hl, hlt]⟩
  | true =>
    have hge : ¬b0.toNat < 128 := not_lt.mpr ((isLongOpcode_iff b0).mp hl)
    exact ⟨_, by rw [decode_long hl, if_neg hge], by simp [length_instrOf, hl, hge]⟩

/-- Settles O13: three bytes fit in every admitted memory, so the core runs at the placed word. -/
theorem placedWordRunsNext : Obligations.PlacedWordRunsNext := by
  intro s nbits w i hinv hword
  obtain ⟨rest, hdec⟩ := decode_bytesOfTableWord hword
  have hroom : (bytesOfTableWord nbits w).length ≤ s.mem.size :=
    le_trans (by decide : 3 ≤ 8) (eight_le_size_of_wf hinv)
  exact step_of_runsBytes ((placeAtPc_fits hroom).trans (size_le_of_wf hinv))
    (runsBytes_placeAtPc hinv hroom) hdec

/-- Settles O37: the last step of R77 swaps the halves, or not, of what the first four have laid
out. -/
theorem patternExtensionByLanes : Obligations.PatternExtensionByLanes := by
  intro a i j hj
  rw [ximm, lane_whenSet, lane_swapHalves _ hj, lane_afterFillHigh _ _ _ _ hj,
    lane_afterFillHigh _ _ _ _ (Nat.mod_lt _ (by decide))]
  cases a.getLsbD 3 <;> cases a.getLsbD 2 <;> interval_cases j <;> rfl

/-- Settles O38, from the value, the upper bits and the displacement of the sign-extended
immediate. -/
theorem signExtensionKeepsValue : Obligations.SignExtensionKeepsValue :=
  ⟨toInt_simm, fun imm _ => getLsbD_simm_of_ge imm, fun _ => simmOfDisp_eq_ofInt⟩

/-- Settles O39, category by category: each has its own range of signed values. -/
theorem categoriesPartitionValues : Obligations.CategoriesPartitionValues := by
  intro v
  simp only [category_number_eq_sign_rest, and_true]
  rcases category_cases v with ⟨hc, hv⟩ | ⟨hc, hv⟩ | ⟨hc, hv⟩ | ⟨hc, hlo, hneg⟩
  all_goals
    simp only [hc, reduceCtorEq, true_iff, false_iff]
    omega

/-- Settles O40, category by category: a selector answers its bit for the category, and each
comparison with zero holds in whole categories. -/
theorem selectorsCompareSigned : Obligations.SelectorsCompareSigned := by
  intro v
  have hzero : v = 0 ↔ v.toInt = 0 := BitVec.toInt_inj.symm
  simp only [condHolds_xor_allOnes, hzero, ne_eq, implies_true, and_true]
  rcases category_cases v with ⟨hc, hv⟩ | ⟨hc, hv⟩ | ⟨hc, hv⟩ | ⟨hc, hlo, hneg⟩
  all_goals
    simp only [condHolds, hc, Category.number, BitVec.reduceGetLsb, BitVec.ofNat_eq_ofNat, true_iff,
      false_iff, Bool.false_eq_true, true_and]
    omega

/-- Settles O8, by evaluating the decoder at each word. -/
theorem opcodeMapWordsDecode : Obligations.OpcodeMapWordsDecode :=
  ⟨rfl, rfl, rfl, rfl, rfl, rfl, rfl, rfl, rfl, rfl, rfl⟩

end Sys2Proof.Machine
end

section
/-! SUPPORT. Facts the statements about the step cycle rest on (spec/40_step_cycle.md R100 to R105):
the fetch, the execution and the commit by the decoder's record, the shifts as arithmetic (R108),
where an instruction goes on, what another hook leaves as it is, and how a run under the driver
stands. -/

namespace Sys2Proof.Machine

open Sys2Proof.Config

/-! ### The three ways of a step -/

theorem step_of_halt {s : State} (h : s.halt = true) : step s = .next s := if_pos h

theorem step_of_fetch_error {s : State} {f : Fault} (h : s.halt = false)
    (hf : fetchInstr s.mem s.pc = .error f) : step s = .fault f := by
  simp only [step, h, hf, Bool.false_eq_true, if_false]

theorem step_of_fetch_ok {s : State} {i : Instr} (h : s.halt = false)
    (hf : fetchInstr s.mem s.pc = .ok i) : step s = exec i s := by
  simp only [step, h, hf, Bool.false_eq_true, if_false]

/-- One byte in bounds never reaches the end of the address range, so no invariant is needed
(R101). -/
theorem step_of_runsByte {s : State} {b0 : Byte} {i : Instr} (hruns : s.RunsBytes [b0])
    (hdec : decode [b0] = .ok (i, [])) : step s = exec i s :=
  step_of_runsBytes (bytes := [b0]) s.pc.isLt hruns hdec

/-! ### The fetch by the record -/

/-- The two fetches read the same bytes: both meet the same fault, or both have the opcode byte and
the literal (R101, R74). -/
theorem fetchInstr_fetchRecord_cases (m : Memory) (pc acc : Word) :
    (∃ f, fetchInstr m pc = .error f ∧ fetchRecord m pc acc = .error f) ∨
      ∃ b0 imm, fetchInstr m pc = .ok (instrOf b0 imm) ∧
        fetchRecord m pc acc = .ok (recordOf b0 imm acc) := by
  simp only [fetchInstr, fetchRecord, isLongOpcode]
  cases fetchByte m pc with
  | error f => exact .inl ⟨f, rfl, rfl⟩
  | ok b0 =>
    by_cases hl : (opField b0).getLsbD 3 = true
    · simp only [hl, if_true]
      cases fetchByte m (pc + 1) with
      | error f => exact .inl ⟨f, rfl, rfl⟩
      | ok b1 =>
        cases fetchByte m (pc + 2) with
        | error f => exact .inl ⟨f, rfl, rfl⟩
        | ok b2 => exact .inr ⟨b0, literalOfBytes b1 b2, rfl, rfl⟩
    · simp only [hl]
      exact .inr ⟨b0, 0, rfl, rfl⟩

/-! ### The shift amount -/

/-- The low six bits of `acc` are `acc` modulo 64 (R108; the spec's decision D6, log 9). -/
theorem shiftAmount_eq_mod (acc : Word) : shiftAmount acc = acc.toNat % 64 :=
  BitVec.extractLsb'_toNat 0 6 acc

theorem shiftLeft_eq_mul (sr acc : Word) :
    shiftLeft sr acc = BitVec.ofNat 64 (sr.toNat * 2 ^ (acc.toNat % 64)) := by
  apply BitVec.eq_of_toNat_eq
  rw [shiftLeft, shiftAmount_eq_mod, BitVec.toNat_shiftLeft, Nat.shiftLeft_eq, BitVec.toNat_ofNat]

theorem shiftRight_eq_div (sr acc : Word) :
    shiftRight sr acc = BitVec.ofNat 64 (sr.toNat / 2 ^ (acc.toNat % 64)) := by
  apply BitVec.eq_of_toNat_eq
  rw [shiftRight, shiftAmount_eq_mod, BitVec.toNat_ushiftRight, Nat.shiftRight_eq_div_pow,
    BitVec.toNat_ofNat, Nat.mod_eq_of_lt ((Nat.div_le_self ..).trans_lt sr.isLt)]

/-! ### The execution and the commit by the record -/

/-- The end of the step of R101: `pc` becomes `next_pc`, or the fault is reported. -/
def commitRecord : Except Fault (State × Word) → Host.Outcome State Fault Refusal
  | .error f => .fault f
  | .ok (t, nextPc) => .next { t with pc := nextPc }

/-- The execution of a record and the commit (R101). -/
def runRecord (d : Record) (s : State) : Host.Outcome State Fault Refusal :=
  commitRecord (executeByRecord d s (s.pc + BitVec.ofNat 64 d.length))

theorem stepByRecord_of_halt {s : State} (h : s.halt = true) : stepByRecord s = .next s := by
  simp only [stepByRecord, h, if_true]

theorem stepByRecord_of_fetch_error {s : State} {f : Fault} (h : s.halt = false)
    (hf : fetchRecord s.mem s.pc s.acc = .error f) : stepByRecord s = .fault f := by
  simp only [stepByRecord, h, hf, Bool.false_eq_true, if_false]

theorem stepByRecord_of_fetch_ok {s : State} {d : Record} (h : s.halt = false)
    (hf : fetchRecord s.mem s.pc s.acc = .ok d) : stepByRecord s = runRecord d s := by
  simp only [stepByRecord, h, hf, Bool.false_eq_true, if_false, runRecord]
  cases executeByRecord d s (s.pc + BitVec.ofNat 64 d.length) <;> rfl

theorem exec_shl_eq_mod (s : State) :
    exec .shl s = .next ((s.setAcc (s.sr <<< (s.acc.toNat % 64))).setPc s.afterShort) := by
  rw [← shiftAmount_eq_mod]
  rfl

theorem exec_shr_eq_mod (s : State) :
    exec .shr s = .next ((s.setAcc (s.sr >>> (s.acc.toNat % 64))).setPc s.afterShort) := by
  rw [← shiftAmount_eq_mod]
  rfl

/-- Opcode group 0: the instruction that the argument nibble selects does what the record's
sub-operation of that number does (R86). -/
theorem exec_systemTable (arg : Nibble) (s : State) :
    exec (systemTable[arg.toNat]'arg.isLt) s =
      commitRecord (.ok (systemByRecord arg.toNat s s.afterShort)) := by
  obtain ⟨arg⟩ := arg
  fin_cases arg
  iterate 6 rfl -- sub-operations 0 to 5
  · exact exec_shl_eq_mod s
  · exact exec_shr_eq_mod s
  all_goals rfl

/-- Opcode group 8 by the literal of the displacement (R155, R76). -/
theorem exec_b_dispOfLiteral (c : Selector) (imm : Literal) (s : State) :
    exec (.b c (dispOfLiteral imm)) s =
      commitRecord
        (.ok (s, if condHolds c s.acc then s.afterLong + simm imm else s.afterLong)) := by
  simp only [exec, execB, relativeTarget, simmOfDisp, literalOfDisp_dispOfLiteral]
  split_ifs <;> rfl

/-- Opcode group 9 by the literal of the displacement (R156, R76). -/
theorem exec_call_dispOfLiteral (c : Selector) (imm : Literal) (s : State) :
    exec (.call c (dispOfLiteral imm)) s =
      commitRecord
        (if condHolds c s.acc then .ok ({ s with lr := s.afterLong }, s.afterLong + simm imm)
        else .ok (s, s.afterLong)) := by
  simp only [exec, execCall, relativeTarget, simmOfDisp, literalOfDisp_dispOfLiteral]
  split_ifs <;> rfl

/-- Opcode group A by the literal of the displacement (R160, R76). -/
theorem exec_ld_dispOfLiteral (r : Reg) (imm : Literal) (s : State) :
    exec (.ld r (dispOfLiteral imm)) s =
      commitRecord ((memRead s.mem (s.readGpr r + simm imm)).map
        fun v => ({ s with acc := v }, s.afterLong)) := by
  simp only [exec, execLd, State.effectiveAddress, simmOfDisp, literalOfDisp_dispOfLiteral]
  cases memRead s.mem (s.readGpr r + simm imm) <;> rfl

/-- Opcode group B by the literal of the displacement (R161, R76). -/
theorem exec_st_dispOfLiteral (r : Reg) (imm : Literal) (s : State) :
    exec (.st r (dispOfLiteral imm)) s =
      commitRecord ((memWrite s.mem (s.readGpr r + simm imm) s.acc).map
        fun m => ({ s with mem := m }, s.afterLong)) := by
  simp only [exec, execSt, State.effectiveAddress, simmOfDisp, literalOfDisp_dispOfLiteral]
  cases memWrite s.mem (s.readGpr r + simm imm) s.acc <;> rfl

/-- The instruction of an opcode byte and a literal does what their record does, opcode group by
opcode group (R86, R101). Outside group 0 and the groups with a displacement the two descriptions
write the same state. -/
theorem exec_instrOf_eq_runRecord (b0 : Byte) (imm : Literal) (s : State) :
    exec (instrOf b0 imm) s = runRecord (recordOf b0 imm s.acc) s := by
  obtain ⟨op, arg, rfl⟩ : ∃ op arg, opcodeByte op arg = b0 := ⟨_, _, opcodeByte_fields b0⟩
  rw [instrOf_opcodeByte, recordOf, opField_opcodeByte, argField_opcodeByte]
  obtain ⟨op⟩ := op
  fin_cases op
  · exact exec_systemTable arg s
  iterate 7 rfl -- groups 1 to 7
  · exact exec_b_dispOfLiteral arg imm s
  · exact exec_call_dispOfLiteral arg imm s
  · exact exec_ld_dispOfLiteral (regOfArg arg) imm s
  · exact exec_st_dispOfLiteral (regOfArg arg) imm s
  all_goals rfl

/-! ### Where an instruction goes on, and what another hook leaves as it is -/

/-- An instruction that transfers no control goes on at the next one (R101, R21). -/
theorem nextState_pc_of_not_transfersControl {i : Instr} (h : transfersControl i = false)
    (s : State) : (nextState i s).pc = s.pc + BitVec.ofNat 64 i.length := by
  cases i <;> cases h <;> rfl

/-- Only `ld` and `st` can stop; every other instruction completes (R111, R180). -/
theorem exec_of_not_ld_st {i : Instr} (hld : ∀ r d, i ≠ .ld r d) (hst : ∀ r d, i ≠ .st r d)
    (s : State) : exec i s = .next (nextState i s) := by
  rcases exec_cases i s with hnext | ⟨r, d, hi, -⟩ | ⟨r, d, hi, -⟩
  · exact hnext
  · exact absurd hi (hld r d)
  · exact absurd hi (hst r d)

/-- An instruction that is no trap reads and writes nothing of the hook (R105). -/
theorem nextState_withHook {i : Instr} (h : trapKindOf i = none) (s : State) (q : List HookReply)
    (f : HookReply) : nextState i (s.withHook q f) = (nextState i s).withHook q f := by
  cases i <;> cases h
  case call c d => simp only [nextState_call]; rfl
  all_goals rfl

/-- A load meets the same memory and the same address whatever hook is attached (R105, R160). -/
theorem exec_ld_withHook (r : Reg) (d : Disp) (s : State) (q : List HookReply) (f : HookReply) :
    exec (.ld r d) (s.withHook q f) = outcomeWithHook q f (exec (.ld r d) s) := by
  simp only [exec, execLd, State.effectiveAddress, State.readGpr_withHook, State.withHook_mem]
  cases memRead s.mem (s.readGpr r + simmOfDisp d) <;> rfl

/-- A store meets the same memory and the same address whatever hook is attached (R105, R161). -/
theorem exec_st_withHook (r : Reg) (d : Disp) (s : State) (q : List HookReply) (f : HookReply) :
    exec (.st r d) (s.withHook q f) = outcomeWithHook q f (exec (.st r d) s) := by
  simp only [exec, execSt, State.effectiveAddress, State.readGpr_withHook, State.withHook_mem,
    State.withHook_acc]
  cases memWrite s.mem (s.readGpr r + simmOfDisp d) s.acc <;> rfl

/-! ### The Step Driver -/

/-- The driver stops at once in a halted state, whatever its bound (R104). -/
theorem drive_of_halt {s : State} (h : s.halt = true) (n : Nat) : drive n s = .halted s := by
  cases n <;> exact if_pos h

theorem drive_zero_of_running {s : State} (h : s.halt = false) : drive 0 s = .running s := by
  simp only [drive, h, Bool.false_eq_true, if_false]

/-- All that the driver can do with a running state and steps to go (R104, R10): go on from the next
state, or stop at a fault. -/
theorem drive_succ_cases {s : State} (h : s.halt = false) :
    (∃ t, step s = .next t ∧ ∀ n, drive (n + 1) s = drive n t) ∨
      ∃ f, step s = .fault f ∧ ∀ n, drive (n + 1) s = .faulted s f := by
  rcases stepIsNeverRefused s with ⟨t, hstep⟩ | ⟨k, a, hstep⟩
  · exact .inl ⟨t, hstep, fun n => by simp only [drive, h, hstep, Bool.false_eq_true, if_false]⟩
  · exact .inr ⟨_, hstep, fun n => by simp only [drive, h, hstep, Bool.false_eq_true, if_false]⟩

/-- What the state of a run's end is, by how the run stands (R104): halted, about to stop again, or
running. -/
def RunEnd.Stands : RunEnd → Prop
  | .halted t => t.halt = true
  | .faulted t f => t.halt = false ∧ step t = .fault f
  | .refused t r => t.halt = false ∧ step t = .refused r
  | .running t => t.halt = false

/-- The driver reports a run as it stands (R104). -/
theorem drive_stands (n : Nat) (s : State) : (drive n s).Stands := by
  induction n generalizing s with
  | zero =>
    cases h : s.halt with
    | true => rwa [drive_of_halt h]
    | false => rwa [drive_zero_of_running h]
  | succ n ih =>
    cases h : s.halt with
    | true => rwa [drive_of_halt h]
    | false =>
      rcases drive_succ_cases h with ⟨t, -, hdrive⟩ | ⟨f, hstep, hdrive⟩
      · rw [hdrive]
        exact ih t
      · rw [hdrive]
        exact ⟨h, hstep⟩

/-- A run that has ended stays as it is under every larger bound (R104, R197). -/
theorem drive_of_le {n m : Nat} (hle : n ≤ m) {s : State} (hend : ∀ t, drive n s ≠ .running t) :
    drive m s = drive n s := by
  induction n generalizing m s with
  | zero =>
    cases h : s.halt with
    | true => rw [drive_of_halt h, drive_of_halt h]
    | false => exact absurd (drive_zero_of_running h) (hend s)
  | succ n ih =>
    obtain ⟨m, rfl⟩ : ∃ k, m = k + 1 := ⟨m - 1, by omega⟩
    cases h : s.halt with
    | true => rw [drive_of_halt h, drive_of_halt h]
    | false =>
      rcases drive_succ_cases h with ⟨t, -, hdrive⟩ | ⟨f, -, hdrive⟩
      · rw [hdrive] at hend
        rw [hdrive, hdrive]
        exact ih (Nat.le_of_succ_le_succ hle) hend
      · rw [hdrive, hdrive]

/-- The outcome of the host's plain run that a run's end stands for: halted or running, the state is
the run's last; otherwise the run stops for the same reason. -/
def RunEnd.outcome : RunEnd → Host.Outcome State Fault Refusal
  | .halted t => .next t
  | .faulted _ f => .fault f
  | .refused _ r => .refused r
  | .running t => .next t

/-- A run's end stands for a state exactly when it is halted or running in it. -/
theorem RunEnd.outcome_eq_next_iff {e : RunEnd} {t : State} :
    e.outcome = .next t ↔ e = .halted t ∨ e = .running t := by
  cases e <;> simp [RunEnd.outcome]

/-- One more step of the plain run, taken first. -/
theorem run_succ_of_next {s t : State} (h : step s = .next t) (n : Nat) :
    Sys2Proof.core.run (n + 1) s = Sys2Proof.core.run n t := by
  have hcore : Sys2Proof.core.step s = .next t := h
  simp only [Host.Core.run, hcore]

theorem run_succ_of_fault {s : State} {f : Fault} (h : step s = .fault f) (n : Nat) :
    Sys2Proof.core.run (n + 1) s = .fault f := by
  have hcore : Sys2Proof.core.step s = .fault f := h
  simp only [Host.Core.run, hcore]

/-- A halted core idles for the rest of a plain run (R100; log 15). -/
theorem run_of_halt {s : State} (h : s.halt = true) (n : Nat) :
    Sys2Proof.core.run n s = .next s := by
  induction n with
  | zero => rfl
  | succ n ih => rw [run_succ_of_next (step_of_halt h), ih]

/-- The plain run and the driver take the same steps (R104). -/
theorem run_eq_outcome_drive (n : Nat) (s : State) :
    Sys2Proof.core.run n s = (drive n s).outcome := by
  induction n generalizing s with
  | zero =>
    cases h : s.halt with
    | true => rw [drive_of_halt h, run_of_halt h]; rfl
    | false => rw [drive_zero_of_running h]; rfl
  | succ n ih =>
    cases h : s.halt with
    | true => rw [drive_of_halt h, run_of_halt h]; rfl
    | false =>
      rcases drive_succ_cases h with ⟨t, hstep, hdrive⟩ | ⟨f, hstep, hdrive⟩
      · rw [hdrive, run_succ_of_next hstep, ih]
      · rw [hdrive, run_succ_of_fault hstep]
        rfl

end Sys2Proof.Machine
end

section
/-! SUPPORT. The statements about the step cycle and the driver (spec/40_step_cycle.md R100 to R105),
and the shifts (R108, R126, R127). -/

namespace Sys2Proof.Machine

/-- Settles O12: the two steps fetch the same bytes, and the instruction of those bytes does what
their record does. -/
theorem stepIsTheRecordStep : Obligations.StepIsTheRecordStep := by
  intro s
  cases h : s.halt with
  | true => rw [step_of_halt h, stepByRecord_of_halt h]
  | false =>
    rcases fetchInstr_fetchRecord_cases s.mem s.pc s.acc with
      ⟨f, hinstr, hrecord⟩ | ⟨b0, imm, hinstr, hrecord⟩
    · rw [step_of_fetch_error h hinstr, stepByRecord_of_fetch_error h hrecord]
    · rw [step_of_fetch_ok h hinstr, stepByRecord_of_fetch_ok h hrecord, exec_instrOf_eq_runRecord]

/-- Settles O20: the shift amount is `acc` modulo 64, and a shift by it multiplies or divides by a
power of two (R108; the spec's decisions D6 and D7, log 9). -/
theorem shiftsByAccModulo64 : Obligations.ShiftsByAccModulo64 := by
  intro s
  rw [← shiftLeft_eq_mul, ← shiftRight_eq_div]
  exact ⟨rfl, rfl, fun hruns => step_of_runsByte hruns rfl, fun hruns => step_of_runsByte hruns rfl⟩

/-- Settles O46: an instruction that completes does so in its next state. -/
theorem othersGoOnAtNextInstruction : Obligations.OthersGoOnAtNextInstruction := by
  intro i s t htransfer hexec
  obtain rfl := exec_next hexec
  exact nextState_pc_of_not_transfersControl htransfer s

/-- Settles O47: `ld` and `st` read no part of the hook, and any other instruction that is no trap
completes in a next state that carries the hook along. -/
theorem hookMattersToTrapsOnly : Obligations.HookMattersToTrapsOnly := by
  intro i s q f htrap
  cases i
  case ld r d => exact exec_ld_withHook r d s q f
  case st r d => exact exec_st_withHook r d s q f
  all_goals
    rw [exec_of_not_ld_st (by simp) (by simp), exec_of_not_ld_st (by simp) (by simp),
      nextState_withHook htrap]
    rfl

/-- Settles O50: a run that has ended stays as it is, and a halted one stands in a halted state. -/
theorem haltedRunIsFinal : Obligations.HaltedRunIsFinal := by
  intro n s t hdrive
  have hstands := drive_stands n s
  rw [hdrive] at hstands
  exact ⟨hstands, fun m hle => (drive_of_le hle (by simp [hdrive])).trans hdrive⟩

/-- Settles O51: a run that has ended stays as it is, and a faulted one stands in a running state
whose step faults (the spec's decision D15, log 7). -/
theorem faultedRunIsNotFinal : Obligations.FaultedRunIsNotFinal := by
  intro n s t f hdrive
  have hstands := drive_stands n s
  rw [hdrive] at hstands
  obtain ⟨hrunning, hfault⟩ := hstands
  exact ⟨hrunning, hfault, fun m hle => (drive_of_le hle (by simp [hdrive])).trans hdrive⟩

/-- Settles O52: the plain run has the outcome that the driver's report stands for (log 18). -/
theorem driverAgreesWithPlainRun : Obligations.DriverAgreesWithPlainRun := by
  intro n s t
  rw [run_eq_outcome_drive]
  exact RunEnd.outcome_eq_next_iff

/-- Settles O9: bytes in bounds of an admitted memory do not reach the end of the address range. -/
theorem stepRunsDecodedInstruction : Obligations.StepRunsDecodedInstruction := by
  intro s bytes i hinv hruns hdec
  have ⟨_, hsize, _⟩ := hruns
  exact step_of_runsBytes (hsize.trans (size_le_of_wf hinv)) hruns hdec

/-- Settles O10, by the first branch of the step (R100; log 15). -/
theorem haltedCoreIdles : Obligations.HaltedCoreIdles := fun _ => step_of_halt

end Sys2Proof.Machine
end

section
/-! SUPPORT. Facts the statements about opcode group 0 rest on: what a trap does (R186), which
instruction writes `sr` (R125), and the fetch at a `pc` outside memory (R128). -/

namespace Sys2Proof.Machine

open Sys2Proof.Config

/-- The hook raises the halt flag exactly when it answers `Halt`, and never lowers it (R186). -/
theorem invokeHook_eq_ite (s : State) (k : TrapKind) :
    s.invokeHook k =
      { s with
        halt := if s.hookAnswer k = .halt then true else s.halt
        hook := s.hook.afterCall { kind := k, view := s.view } } := by
  by_cases hanswer : s.hookAnswer k = .halt <;> simp [State.invokeHook, hanswer]

/-- A trap instruction completes whatever the hook answers, at `pc + 1` (R103, R186). -/
theorem exec_of_trapKindOf {i : Instr} {k : TrapKind} (h : trapKindOf i = some k) (s : State) :
    exec i s = .next
      { s with
        pc := s.pc + 1
        halt := if s.hookAnswer k = .halt then true else s.halt
        hook := s.hook.afterCall { kind := k, view := s.view } } := by
  have hnext : exec i s = .next (nextState i s) := by cases i <;> cases h <;> rfl
  rw [hnext, nextState_of_trapKindOf h, invokeHook_eq_ite]
  rfl

/-- Every instruction but `mtsr` keeps `sr` (R24, R125). -/
theorem nextState_sr_of_ne_mtsr {i : Instr} (h : i ≠ .mtsr) (s : State) :
    (nextState i s).sr = s.sr := by
  cases i
  case mtsr => exact absurd rfl h
  case call c d => simp [nextState_call]
  all_goals rfl

/-- The fetch at an index outside memory fails at the opcode byte (R50, R183). -/
theorem fetchInstr_of_size_le {m : Memory} {pc : Word} (h : m.size ≤ pc.toNat) :
    fetchInstr m pc = .error (.memoryFault .fetch pc) := by
  rcases fetchByte_cases m pc with ⟨hin, -⟩ | ⟨-, hfault⟩
  · exact absurd hin (not_lt.mpr h)
  · simp only [fetchInstr, hfault]

/-- A running core whose `pc` is outside memory faults in the fetch, at `pc` (R128, R180). -/
theorem step_of_pc_outside {s : State} (hrunning : s.halt = false)
    (hpc : s.mem.size ≤ s.pc.toNat) : step s = .fault (.memoryFault .fetch s.pc) :=
  step_of_fetch_error hrunning (fetchInstr_of_size_le hpc)

end Sys2Proof.Machine
end

section
/-! SUPPORT. The statements about opcode group 0 (spec/41_op0_system_control.md R120 to R135). Where
an instruction's next state is one record update, `exec` unfolds to it; each opcode byte of the
group decodes by evaluation. -/

namespace Sys2Proof.Machine

/-- Settles O18: each trap is the one trap step with its own kind (the spec's decision D10, log 5),
and the answer for that kind is the matching field of the reply (log 3). -/
theorem trapsInvokeTheHook : Obligations.TrapsInvokeTheHook := by
  intro s
  refine ⟨⟨?null, ?trace, ?syscall, ?extension⟩, fun hruns => step_of_runsByte hruns rfl,
    fun hruns => step_of_runsByte hruns rfl, fun hruns => step_of_runsByte hruns rfl,
    fun hruns => step_of_runsByte hruns rfl⟩
  case null => exact exec_of_trapKindOf (k := .null) rfl s
  case trace => exact exec_of_trapKindOf (k := .trace) rfl s
  case syscall => exact exec_of_trapKindOf (k := .syscall) rfl s
  case extension => exact exec_of_trapKindOf (k := .extension) rfl s

/-- Settles O19: the four moves unfold to their record updates, and an instruction other than `mtsr`
keeps `sr`. -/
theorem movesOfShiftAndLinkRegister : Obligations.MovesOfShiftAndLinkRegister := by
  intro s
  refine ⟨⟨rfl, rfl, rfl, rfl⟩, fun hruns => step_of_runsByte hruns rfl,
    fun hruns => step_of_runsByte hruns rfl, fun hruns => step_of_runsByte hruns rfl,
    fun hruns => step_of_runsByte hruns rfl, fun i t hexec hsr => ?_⟩
  obtain rfl := exec_next hexec
  by_contra hne
  exact hsr (nextState_sr_of_ne_mtsr hne s)

/-- Settles O21: the three transfers unfold to their record updates with no check of the target, and
a target outside memory is met by the next fetch. -/
theorem indirectControlTransfers : Obligations.IndirectControlTransfers := by
  intro s
  refine ⟨⟨rfl, rfl, rfl⟩, fun hruns => step_of_runsByte hruns rfl,
    fun hruns => step_of_runsByte hruns rfl, fun hruns => step_of_runsByte hruns rfl,
    fun hrunning hacc => ?_⟩
  exact step_of_pc_outside (s := { s with pc := s.acc }) hrunning hacc

/-- Settles O22: the execution of each of the two unfolds to its record update. -/
theorem nopAndLoadPc : Obligations.NopAndLoadPc := fun _ =>
  ⟨rfl, rfl, fun hruns => step_of_runsByte hruns rfl, fun hruns => step_of_runsByte hruns rfl⟩

/-- Settles O23: `halt` unfolds to its record update (R103; the spec's decision D11, log 10), and
the state it leaves is a halted one, in which a step idles (R100). -/
theorem haltStopsTheCore : Obligations.HaltStopsTheCore := fun _ =>
  ⟨rfl, fun hruns => step_of_runsByte hruns rfl, step_of_halt rfl⟩

end Sys2Proof.Machine
end

section
/-! SUPPORT. Opcode groups by number: the opcode byte as an integer, and what runs where a byte of a
format S group stands at `pc` (spec/30_encoding.md R71 to R73, R86; spec/40_step_cycle.md R101). -/

namespace Sys2Proof.Machine

/-- The opcode byte as a number: the group in the high nibble, the argument in the low one (R71). -/
theorem opcodeByte_eq_ofNat (op arg : Nibble) :
    opcodeByte op arg = BitVec.ofNat 8 (16 * op.toNat + arg.toNat) := by
  have hvalue : op.toNat <<< 4 ||| arg.toNat = 16 * op.toNat + arg.toNat := by
    rw [← Nat.shiftLeft_add_eq_or_of_lt arg.isLt, Nat.shiftLeft_eq, Nat.mul_comm]
  apply BitVec.eq_of_toNat_eq
  rw [opcodeByte, BitVec.toNat_append, hvalue, BitVec.toNat_ofNat, Nat.mod_eq_of_lt (by omega)]

/-- A running core at whose `pc` stands the byte of a format S group and an argument executes that
entry of the opcode map (R86, R101). -/
theorem step_of_runsShort {s : State} {op : Nibble} (h : op.getLsbD 3 = false) (arg : Nibble)
    (hruns : s.RunsBytes [BitVec.ofNat 8 (16 * op.toNat + arg.toNat)]) :
    step s = exec ((opcodeTable arg 0)[op.toNat]'op.isLt) s := by
  rw [← opcodeByte_eq_ofNat] at hruns
  exact step_of_runsByte hruns (decode_shortBytes h arg [])

end Sys2Proof.Machine
end

section
/-! SUPPORT. The statement about opcode group 1, `test` (spec/42_test.md R140). -/

namespace Sys2Proof.Machine

/-- Settles O24: `test` writes the mask of the condition result, which is the selector read in words
(R81), and is the entry of group 1 for every argument (R86). -/
theorem testWritesMask : Obligations.TestWritesMask := by
  intro s c
  refine ⟨?mask, fun hruns => step_of_runsShort (op := 1) rfl c hruns⟩
  case mask =>
    rw [← condHolds_eq_selects]
    rfl

end Sys2Proof.Machine
end

section
/-! SUPPORT. The register groups 2 to 7: the byte that names a register, the sum of two words as a
number, and which instruction writes a general register (spec/30_encoding.md R79, R86, R90;
spec/43_register_ops.md R146, R150). -/

namespace Sys2Proof.Machine

/-- The argument nibble of a register is its number (R90). -/
theorem toNat_argOfReg (r : Reg) : (argOfReg r).toNat = r.val := by
  rw [argOfReg, BitVec.toNat_ofNat, Nat.mod_eq_of_lt r.isLt]

/-- Where a format S group holds `f rN` for every register, a running core at whose `pc` stands the
byte of the group and a register executes `f` of that register (R79, R86, R101). -/
theorem step_of_runsRegister {s : State} {op : Nibble} {f : Reg → Instr}
    (h : op.getLsbD 3 = false)
    (hrow : ∀ arg, (opcodeTable arg 0)[op.toNat]'op.isLt = f (regOfArg arg)) (r : Reg)
    (hruns : s.RunsBytes [BitVec.ofNat 8 (16 * op.toNat + r.val)]) : step s = exec (f r) s := by
  rw [← toNat_argOfReg r] at hruns
  rw [step_of_runsShort h (argOfReg r) hruns, hrow, regOfArg_argOfReg]

/-- The sum of two words is the sum of their numbers modulo 2^64 (R8, R150). -/
theorem add_eq_ofNat_mod (v w : Word) :
    v + w = BitVec.ofNat 64 ((v.toNat + w.toNat) % 2 ^ 64) := by
  rw [← BitVec.toNat_add, BitVec.ofNat_toNat, BitVec.setWidth_eq]

/-- Every instruction but `mt r` keeps register `r`; an `mt` of another register is one of them
(R20, R146). -/
theorem nextState_readGpr_of_ne_mt {i : Instr} {r : Reg} (h : i ≠ .mt r) (s : State) :
    (nextState i s).readGpr r = s.readGpr r := by
  cases i
  case mt q =>
    have hne : r ≠ q := fun hrq => h (congrArg Instr.mt hrq.symm)
    rw [nextState, State.readGpr_setPc, State.readGpr_setGpr, if_neg hne]
  case call c d => simp [nextState_call]
  all_goals rfl

end Sys2Proof.Machine
end

section
/-! SUPPORT. The statements about the register moves and the register ALU operations
(spec/43_register_ops.md R145 to R150). -/

namespace Sys2Proof.Machine

/-- Settles O25: each of the five unfolds to its record update, the sum once it is read as a sum of
words, and is the entry of its group for every register. -/
theorem registerOperationsWriteAcc : Obligations.RegisterOperationsWriteAcc := by
  intro s r
  rw [← add_eq_ofNat_mod]
  exact ⟨⟨rfl, rfl, rfl, rfl, rfl⟩,
    step_of_runsRegister (op := 2) (f := .mf) rfl (fun _ => rfl) r,
    step_of_runsRegister (op := 4) (f := .and) rfl (fun _ => rfl) r,
    step_of_runsRegister (op := 5) (f := .or) rfl (fun _ => rfl) r,
    step_of_runsRegister (op := 6) (f := .xor) rfl (fun _ => rfl) r,
    step_of_runsRegister (op := 7) (f := .add) rfl (fun _ => rfl) r⟩

/-- Settles O26: the named register reads back what `mt` wrote and the others are kept, `mt` is the
entry of group 3 for every register, and any other instruction keeps the register. -/
theorem moveToRegisterWritesOne : Obligations.MoveToRegisterWritesOne := by
  intro s r
  refine ⟨⟨nextState (.mt r) s, rfl, ?written, ?kept, rfl⟩,
    step_of_runsRegister (op := 3) (f := .mt) rfl (fun _ => rfl) r, ?only⟩
  case written => exact State.readGpr_setGpr_self s r s.acc
  case kept =>
    intro q hq
    exact nextState_readGpr_of_ne_mt (fun hmt => hq (Instr.mt.inj hmt).symm) s
  case only =>
    intro i t hexec hgpr
    obtain rfl := exec_next hexec
    by_contra hne
    exact hgpr (nextState_readGpr_of_ne_mt hne s)

end Sys2Proof.Machine
end

section
/-! SUPPORT. Facts the statements about the relative branch and call rest on: what runs where the
bytes of a well-formed instruction stand at `pc` (spec/30_encoding.md R87; spec/40_step_cycle.md
R101), the three bytes of an instruction with a displacement (R72, R90), the target of a displacement
(spec/44_branch_call.md R155), and the driver in a state that steps to itself (R104). -/

namespace Sys2Proof.Machine

/-! ### Running the bytes of an instruction -/

/-- A running core at whose `pc` stand the bytes of a well-formed instruction executes it (R87,
R101). -/
theorem step_of_runsEncoding {s : State} {i : Instr} (hinv : s.Inv) (hwf : i.wellFormed = true)
    (hruns : s.RunsBytes (encode i)) : step s = exec i s := by
  have hdec := decodeOfEncode i [] hwf
  rw [List.append_nil] at hdec
  exact stepRunsDecodedInstruction s (encode i) i hinv hruns hdec

/-- The low literal byte of a displacement is the displacement modulo 2^8 (R74, R90). -/
theorem literalOfDisp_low (d : Disp) : (literalOfDisp d).extractLsb' 0 8 = BitVec.ofInt 8 d := by
  apply BitVec.eq_of_toNat_eq
  rw [BitVec.extractLsb'_toNat, literalOfDisp, BitVec.toNat_ofInt, BitVec.toNat_ofInt,
    Nat.shiftRight_zero]
  omega

/-- The high literal byte of a displacement is its quotient by 256, rounded down, modulo 2^8 (R74,
R90). -/
theorem literalOfDisp_high (d : Disp) :
    (literalOfDisp d).extractLsb' 8 8 = BitVec.ofInt 8 (d / 256) := by
  apply BitVec.eq_of_toNat_eq
  rw [BitVec.extractLsb'_toNat, literalOfDisp, BitVec.toNat_ofInt, BitVec.toNat_ofInt,
    Nat.shiftRight_eq_div_pow]
  omega

/-- An instruction with a displacement as three numbers: the opcode byte, the low byte of the
displacement and its high byte (R72, R90). -/
theorem longBytes_literalOfDisp (op arg : Nibble) (d : Disp) :
    longBytes op arg (literalOfDisp d) =
      [BitVec.ofNat 8 (16 * op.toNat + arg.toNat), BitVec.ofInt 8 d, BitVec.ofInt 8 (d / 256)] := by
  rw [longBytes, opcodeByte_eq_ofNat, literalOfDisp_low, literalOfDisp_high]

/-- A running core at whose `pc` stand the three bytes of a well-formed instruction with a
displacement executes it (R72, R90, R101). -/
theorem step_of_runsDisp {s : State} {i : Instr} (op arg : Nibble) {d : Disp} (hinv : s.Inv)
    (hwf : i.wellFormed = true) (hencode : encode i = longBytes op arg (literalOfDisp d))
    (hruns : s.RunsBytes
      [BitVec.ofNat 8 (16 * op.toNat + arg.toNat), BitVec.ofInt 8 d, BitVec.ofInt 8 (d / 256)]) :
    step s = exec i s := by
  rw [← longBytes_literalOfDisp, ← hencode] at hruns
  exact step_of_runsEncoding hinv hwf hruns

/-! ### The target of a displacement, and a step that changes nothing -/

/-- An encodable displacement is added to the address of the following instruction (R155). -/
theorem relativeTarget_eq_add {d : Disp} (h : Disp.Encodable d) (nextPc : Word) :
    relativeTarget nextPc d = nextPc + BitVec.ofInt 64 d := by
  rw [relativeTarget, simmOfDisp_eq_ofInt h]

/-- A running state that steps to itself is still running under every bound (R104). -/
theorem drive_of_step_self {s : State} (hrunning : s.halt = false) (hstep : step s = .next s)
    (n : Nat) : drive n s = .running s := by
  induction n with
  | zero => exact drive_zero_of_running hrunning
  | succ n ih =>
    rcases drive_succ_cases hrunning with ⟨t, hnext, hdrive⟩ | ⟨f, hfault, -⟩
    · cases hstep.symm.trans hnext
      rw [hdrive, ih]
    · cases hstep.symm.trans hfault

end Sys2Proof.Machine
end

section
/-! SUPPORT. The statements about opcode groups 8 and 9, the relative branch and call
(spec/44_branch_call.md R155, R156). -/

namespace Sys2Proof.Machine

/-- Settles O27: the next state of a branch writes `pc` alone, with a target that is the displacement
added to the address of the following instruction when the selector holds (R81). -/
theorem branchIsRelativeToNext : Obligations.BranchIsRelativeToNext := by
  intro s c d hd
  have hexec := exec_of_not_ld_st (i := .b c d) (by simp) (by simp) s
  rw [nextState, condHolds_eq_selects, relativeTarget_eq_add hd] at hexec
  exact ⟨hexec, fun hinv hruns => step_of_runsDisp 8 c hinv (decide_eq_true hd) rfl hruns⟩

/-- Settles O28: the next state of a call writes `lr` under the same condition as the target, and
back to itself where the call is not taken. -/
theorem callLinksOnlyWhenTaken : Obligations.CallLinksOnlyWhenTaken := by
  intro s c d hd
  have hexec := exec_of_not_ld_st (i := .call c d) (by simp) (by simp) s
  rw [nextState_call, relativeTarget_eq_add hd] at hexec
  refine ⟨fun htaken => ?taken, fun hnot => ?untaken,
    fun hinv hruns => step_of_runsDisp 9 c hinv (decide_eq_true hd) rfl hruns⟩
  case taken =>
    rw [hexec, htaken]
    rfl
  case untaken =>
    rw [hexec, hnot]
    rfl

/-- Settles O53: the displacement −3 takes back the length of the branch, so the taken branch steps
to the state it started in. -/
theorem selfBranchNeverEnds : Obligations.SelfBranchNeverEnds := by
  intro s c hinv htaken hruns n
  obtain ⟨hexec, hstep⟩ := branchIsRelativeToNext s c (-3) (by decide)
  have hback : s.pc + 3 + BitVec.ofInt 64 (-3) = s.pc := by
    rw [BitVec.add_assoc]
    exact BitVec.add_zero s.pc
  rw [if_pos htaken, hback] at hexec
  have ⟨hrunning, _, _⟩ := hruns
  exact drive_of_step_self hrunning ((hstep hinv hruns).trans hexec) n

end Sys2Proof.Machine
end

section
/-! SUPPORT. Facts the statements about load and store rest on: the sum of a word and a displacement
as an integer (spec/45_load_store.md R159), what `ld` and `st` do on each side of the bound (R47,
R160, R161), and what runs where the bytes of an instruction with a base register and a displacement
stand at `pc` (spec/30_encoding.md R72, R79, R90). -/

namespace Sys2Proof.Machine

/-! ### The effective address -/

/-- A displacement added to a word is the sum of the two as integers, modulo 2^64 (R159). -/
theorem toNat_add_ofInt (v : Word) (d : Int) :
    ((v + BitVec.ofInt 64 d).toNat : Int) = ((v.toNat : Int) + d) % 2 ^ 64 := by
  rw [BitVec.toNat_add, BitVec.toNat_ofInt]
  omega

/-! ### Both sides of the bound -/

/-- A load completes when its effective address is in bounds (R47, R160). -/
theorem exec_ld_of_lt {s : State} {r : Reg} {d : Disp}
    (hin : (s.effectiveAddress r d).toNat < s.mem.size) :
    exec (.ld r d) s = .next (nextState (.ld r d) s) := by
  rcases memRead_cases s.mem (s.effectiveAddress r d) with ⟨-, hok⟩ | ⟨hout, -⟩
  · simp only [exec, execLd, hok, nextState]
  · exact absurd hin (not_lt.mpr hout)

/-- A load faults with its effective address when that is out of bounds (R47, R160). -/
theorem exec_ld_of_le {s : State} {r : Reg} {d : Disp}
    (hout : s.mem.size ≤ (s.effectiveAddress r d).toNat) :
    exec (.ld r d) s = .fault (.memoryFault .load (s.effectiveAddress r d)) := by
  rcases memRead_cases s.mem (s.effectiveAddress r d) with ⟨hin, -⟩ | ⟨-, herr⟩
  · exact absurd hin (not_lt.mpr hout)
  · simp only [exec, execLd, herr]

/-- A store completes when its effective address is in bounds (R47, R161). -/
theorem exec_st_of_lt {s : State} {r : Reg} {d : Disp}
    (hin : (s.effectiveAddress r d).toNat < s.mem.size) :
    exec (.st r d) s = .next (nextState (.st r d) s) := by
  rcases memWrite_cases s.mem (s.effectiveAddress r d) s.acc with ⟨-, hok⟩ | ⟨hout, -⟩
  · simp only [exec, execSt, hok, nextState]
  · exact absurd hin (not_lt.mpr hout)

/-- A store faults with its effective address when that is out of bounds (R47, R161). -/
theorem exec_st_of_le {s : State} {r : Reg} {d : Disp}
    (hout : s.mem.size ≤ (s.effectiveAddress r d).toNat) :
    exec (.st r d) s = .fault (.memoryFault .store (s.effectiveAddress r d)) := by
  rcases memWrite_cases s.mem (s.effectiveAddress r d) s.acc with ⟨hin, -⟩ | ⟨-, herr⟩
  · exact absurd hin (not_lt.mpr hout)
  · simp only [exec, execSt, herr]

/-! ### Running the bytes of a load or a store -/

/-- A running core at whose `pc` stand the byte of a group and a base register and the two bytes of
a displacement executes the instruction they encode (R79, R90, R101). -/
theorem step_of_runsRegisterDisp {s : State} {i : Instr} (op : Nibble) (r : Reg) {d : Disp}
    (hinv : s.Inv) (hwf : i.wellFormed = true)
    (hencode : encode i = longBytes op (argOfReg r) (literalOfDisp d))
    (hruns : s.RunsBytes
      [BitVec.ofNat 8 (16 * op.toNat + r.val), BitVec.ofInt 8 d, BitVec.ofInt 8 (d / 256)]) :
    step s = exec i s := by
  rw [← toNat_argOfReg r] at hruns
  exact step_of_runsDisp op (argOfReg r) hinv hwf hencode hruns

end Sys2Proof.Machine
end

section
/-! SUPPORT. The statements about opcode groups A and B, load and store (spec/45_load_store.md R159
to R161). -/

namespace Sys2Proof.Machine

/-- Settles O29: the immediate of an encodable displacement is the displacement, and the sum of words
is the sum of integers modulo 2^64. -/
theorem effectiveAddressIsBasePlusOffset : Obligations.EffectiveAddressIsBasePlusOffset := by
  intro s r d hd
  rw [State.effectiveAddress, simmOfDisp_eq_ofInt hd, toNat_add_ofInt]

/-- Settles O30: `acc` becomes the rotated word, whose byte `i` is the byte of memory at lane `i` of
the effective address (R44). -/
theorem loadReadsRotatedBlock : Obligations.LoadReadsRotatedBlock := by
  intro s r d
  refine ⟨fun hin => ⟨nextState (.ld r d) s, exec_ld_of_lt hin, ?bytes, rfl⟩, exec_ld_of_le,
    fun hinv hd hruns => step_of_runsRegisterDisp 0xA r hinv (decide_eq_true hd) rfl hruns⟩
  case bytes =>
    intro i hi
    rw [← lanePos_eq]
    exact byteOf_wordOf (fun k => s.mem.get (lanePos (s.effectiveAddress r d) k)) hi

/-- Settles O31: a store that completes is a memory write that succeeds, which puts byte `i` of `acc`
at lane `i` of the effective address and keeps every other block and the capacity (R45). -/
theorem storeWritesRotatedBlock : Obligations.StoreWritesRotatedBlock := by
  intro s r d hinv
  refine ⟨fun hin => ?stored, exec_st_of_le,
    fun hd hruns => step_of_runsRegisterDisp 0xB r hinv (decide_eq_true hd) rfl hruns⟩
  case stored =>
    have hexec := exec_st_of_lt hin
    have hwrite := memWrite_of_exec_st hexec
    obtain ⟨-, hsize, -, hget⟩ := memWrite_ok hinv hwrite
    refine ⟨nextState (.st r d) s, hexec, fun i hi => ?lanes, fun a hother => ?others, hsize, rfl⟩
    case lanes =>
      rw [← lanePos_eq]
      exact get_lanePos_of_memWrite hinv hwrite hi
    case others => rw [hget, if_neg hother]

end Sys2Proof.Machine
end

section
/-! SUPPORT. What runs where the three bytes of an instruction with a literal stand at `pc`
(spec/30_encoding.md R72, R74). -/

namespace Sys2Proof.Machine

/-- An instruction with a literal as three numbers: the opcode byte, the low byte of the literal and
its high byte (R72, R74). -/
theorem longBytes_eq_setWidth (op arg : Nibble) (imm : Literal) :
    longBytes op arg imm =
      [BitVec.ofNat 8 (16 * op.toNat + arg.toNat), imm.setWidth 8, (imm >>> 8).setWidth 8] := by
  rw [longBytes, opcodeByte_eq_ofNat, BitVec.setWidth_eq_extractLsb' (by decide),
    BitVec.setWidth_ushiftRight_eq_extractLsb]

/-- A running core at whose `pc` stand the three bytes of a well-formed instruction with a literal
executes it (R72, R74, R101). -/
theorem step_of_runsLiteral {s : State} {i : Instr} (op arg : Nibble) {imm : Literal}
    (hinv : s.Inv) (hwf : i.wellFormed = true) (hencode : encode i = longBytes op arg imm)
    (hruns : s.RunsBytes
      [BitVec.ofNat 8 (16 * op.toNat + arg.toNat), imm.setWidth 8, (imm >>> 8).setWidth 8]) :
    step s = exec i s := by
  rw [← longBytes_eq_setWidth, ← hencode] at hruns
  exact step_of_runsEncoding hinv hwf hruns

end Sys2Proof.Machine
end

section
/-! SUPPORT. The statement about opcode groups C to F, the immediate operations
(spec/46_immediate_alu.md R165 to R168). -/

namespace Sys2Proof.Machine

/-- Settles O36: each of the four writes `acc` and `pc` alone, the sum once it is read as a sum of
words, and is what the bytes of its group encode for every pattern and literal. -/
theorem immediateOperationsWriteAcc : Obligations.ImmediateOperationsWriteAcc := by
  intro s a i
  rw [← add_eq_ofNat_mod]
  exact ⟨⟨rfl, rfl, rfl, rfl⟩, fun hinv =>
    ⟨step_of_runsLiteral 0xC a hinv rfl rfl, step_of_runsLiteral 0xD a hinv rfl rfl,
      step_of_runsLiteral 0xE a hinv rfl rfl, step_of_runsLiteral 0xF a hinv rfl rfl⟩⟩

end Sys2Proof.Machine
end

section
/-! SUPPORT. Facts the statements about the exception rest on: the fault an outcome reports, the
fetch that succeeds (spec/20_memory.md R50), and what a load or store at `pc` reports, read off the
opcode byte (spec/60_exceptions.md R180, R183). -/

namespace Sys2Proof.Machine

open Sys2Proof.Config

/-! ### The fault an outcome reports -/

/-- The fault that an outcome reports, if any, as a kind and an address (R180). -/
def reportedFault : Host.Outcome State Fault Refusal → Option (AccessKind × Word)
  | .next _ => none
  | .fault (.memoryFault kind addr) => some (kind, addr)
  | .refused _ => none

theorem reportedFault_eq_some_iff {o : Host.Outcome State Fault Refusal} {k : AccessKind}
    {a : Word} : reportedFault o = some (k, a) ↔ o = .fault (.memoryFault k a) := by
  rcases o with _ | ⟨kind, addr⟩ | _ <;> simp [reportedFault]

/-- A step reports no fault exactly when it completes, since it is never refused (R10). -/
theorem reportedFault_step_eq_none_iff (s : State) :
    reportedFault (step s) = none ↔ ∃ t, step s = .next t := by
  rcases stepIsNeverRefused s with ⟨t, hnext⟩ | ⟨k, a, hfault⟩
  · simp [hnext, reportedFault]
  · simp [hfault, reportedFault]

/-! ### Instructions -/

theorem reportedFault_exec_ld (r : Reg) (d : Disp) (s : State) :
    reportedFault (exec (.ld r d) s) =
      if s.mem.size ≤ (s.effectiveAddress r d).toNat then some (.load, s.effectiveAddress r d)
      else none := by
  split_ifs with hout
  · rw [exec_ld_of_le hout, reportedFault]
  · rw [exec_ld_of_lt (not_le.mp hout), reportedFault]

theorem reportedFault_exec_st (r : Reg) (d : Disp) (s : State) :
    reportedFault (exec (.st r d) s) =
      if s.mem.size ≤ (s.effectiveAddress r d).toNat then some (.store, s.effectiveAddress r d)
      else none := by
  split_ifs with hout
  · rw [exec_st_of_le hout, reportedFault]
  · rw [exec_st_of_lt (not_le.mp hout), reportedFault]

theorem reportedFault_exec_of_not_ld_st {i : Instr} (hld : ∀ r d, i ≠ .ld r d)
    (hst : ∀ r d, i ≠ .st r d) (s : State) : reportedFault (exec i s) = none := by
  rw [exec_of_not_ld_st hld hst, reportedFault]

/-- The opcode group is the high nibble of the opcode byte as a number (R71). -/
theorem toNat_opField (b0 : Byte) : (opField b0).toNat = b0.toNat / 16 := by
  have hlt := b0.isLt
  rw [opField, BitVec.extractLsb'_toNat, Nat.shiftRight_eq_div_pow]
  omega

/-- All that an opcode byte can select, as far as memory is concerned: a load in group A, a store in
group B, and elsewhere neither (R86). -/
theorem instrOf_access_cases (b0 : Byte) (imm : Literal) :
    (b0.toNat / 16 = 0xA ∧ instrOf b0 imm = .ld (regOfArg (argField b0)) (dispOfLiteral imm)) ∨
      (b0.toNat / 16 = 0xB ∧ instrOf b0 imm = .st (regOfArg (argField b0)) (dispOfLiteral imm)) ∨
      (b0.toNat / 16 ≠ 0xA ∧ b0.toNat / 16 ≠ 0xB ∧
        (∀ r d, instrOf b0 imm ≠ .ld r d) ∧ ∀ r d, instrOf b0 imm ≠ .st r d) := by
  obtain ⟨op, arg, rfl⟩ : ∃ op arg, opcodeByte op arg = b0 := ⟨_, _, opcodeByte_fields b0⟩
  rw [← toNat_opField, opField_opcodeByte, instrOf_opcodeByte, argField_opcodeByte]
  obtain ⟨op⟩ := op
  have hsystem : (∀ r d, systemTable[arg.toNat]'arg.isLt ≠ .ld r d) ∧
      ∀ r d, systemTable[arg.toNat]'arg.isLt ≠ .st r d := by
    obtain ⟨arg⟩ := arg
    fin_cases arg <;> exact ⟨nofun, nofun⟩
  fin_cases op
  · exact .inr (.inr ⟨by decide, by decide, hsystem⟩)
  iterate 9 exact .inr (.inr ⟨by decide, by decide, nofun, nofun⟩) -- groups 1 to 9
  · exact .inl ⟨rfl, rfl⟩
  · exact .inr (.inl ⟨rfl, rfl⟩)
  all_goals exact .inr (.inr ⟨by decide, by decide, nofun, nofun⟩)

/-- What an instruction reports, read off its opcode byte (R180): an effective address out of
bounds, as a load in group A and as a store in group B. -/
theorem reportedFault_exec_instrOf (b0 : Byte) (imm : Literal) (s : State) :
    reportedFault (exec (instrOf b0 imm) s) =
      if 0xA0 ≤ b0.toNat ∧ b0.toNat < 0xB0 ∧
          s.mem.size ≤ (s.readGpr (regOfArg (argField b0)) + simm imm).toNat then
        some (.load, s.readGpr (regOfArg (argField b0)) + simm imm)
      else if 0xB0 ≤ b0.toNat ∧ b0.toNat < 0xC0 ∧
          s.mem.size ≤ (s.readGpr (regOfArg (argField b0)) + simm imm).toNat then
        some (.store, s.readGpr (regOfArg (argField b0)) + simm imm)
      else none := by
  have haddr : s.effectiveAddress (regOfArg (argField b0)) (dispOfLiteral imm) =
      s.readGpr (regOfArg (argField b0)) + simm imm := by
    rw [State.effectiveAddress, simmOfDisp, literalOfDisp_dispOfLiteral]
  have hA : 0xA0 ≤ b0.toNat ∧ b0.toNat < 0xB0 ↔ b0.toNat / 16 = 0xA := by omega
  have hB : 0xB0 ≤ b0.toNat ∧ b0.toNat < 0xC0 ↔ b0.toNat / 16 = 0xB := by omega
  simp only [← and_assoc, hA, hB]
  rcases instrOf_access_cases b0 imm with ⟨hop, hi⟩ | ⟨hop, hi⟩ | ⟨hopA, hopB, hld, hst⟩
  · rw [hi, reportedFault_exec_ld, haddr]
    simp [hop]
  · rw [hi, reportedFault_exec_st, haddr]
    simp [hop]
  · rw [reportedFault_exec_of_not_ld_st hld hst]
    simp [hopA, hopB]

/-! ### The fetch, byte by byte -/

theorem fetchByte_of_lt {m : Memory} {a : Word} (h : a.toNat < m.size) :
    fetchByte m a = .ok (m.get a.toNat) :=
  ((fetchByte_cases m a).resolve_right (mt And.left (not_le.mpr h))).2

theorem fetchByte_of_le {m : Memory} {a : Word} (h : m.size ≤ a.toNat) :
    fetchByte m a = .error (.memoryFault .fetch a) :=
  ((fetchByte_cases m a).resolve_left (mt And.left (not_lt.mpr h))).2

/-- A format L instruction whose first literal byte is out of bounds (R50, R183). -/
theorem fetchInstr_of_size_le_add_one {m : Memory} {pc : Word} (h0 : pc.toNat < m.size)
    (hl : isLongOpcode (m.get pc.toNat) = true) (h1 : m.size ≤ (pc + 1).toNat) :
    fetchInstr m pc = .error (.memoryFault .fetch (pc + 1)) := by
  simp only [fetchInstr, fetchByte_of_lt h0, hl, if_true, fetchByte_of_le h1]

/-- A format L instruction whose second literal byte is the first one out of bounds (R50, R183). -/
theorem fetchInstr_of_size_le_add_two {m : Memory} {pc : Word} (h0 : pc.toNat < m.size)
    (hl : isLongOpcode (m.get pc.toNat) = true) (h1 : (pc + 1).toNat < m.size)
    (h2 : m.size ≤ (pc + 2).toNat) :
    fetchInstr m pc = .error (.memoryFault .fetch (pc + 2)) := by
  simp only [fetchInstr, fetchByte_of_lt h0, hl, if_true, fetchByte_of_lt h1, fetchByte_of_le h2]

/-- Inside an admitted memory the next addresses do not wrap (R5, R211). -/
theorem toNat_pc_add {m : Memory} {pc : Word} (hw : m.wf = true) (hpc : pc.toNat < m.size) :
    (pc + 1).toNat = pc.toNat + 1 ∧ (pc + 2).toNat = pc.toNat + 2 := by
  obtain ⟨-, -, hmax⟩ := sizeWf_iff.mp (Memory.wf_iff.mp hw).1
  rw [maxMemsize] at hmax
  exact ⟨BitVec.toNat_add_of_lt (y := 1) (show _ + 1 < _ by omega),
    BitVec.toNat_add_of_lt (y := 2) (show _ + 2 < _ by omega)⟩

/-! ### The effective address read off the bytes at `pc` -/

/-- The register that an argument nibble names, as the low nibble of the opcode byte (R71, R79). -/
theorem regOfArg_argField (b0 : Byte) :
    regOfArg (argField b0) = ⟨b0.toNat % 16, Nat.mod_lt _ (by decide)⟩ :=
  Fin.ext (BitVec.extractLsb'_toNat 0 4 b0)

/-- The literal of two bytes as a number (R74). -/
theorem literalOfBytes_eq_ofNat (b1 b2 : Byte) :
    literalOfBytes b1 b2 = BitVec.ofNat 16 (b1.toNat + 256 * b2.toNat) := by
  have hvalue : b2.toNat <<< 8 ||| b1.toNat = b1.toNat + 256 * b2.toNat := by
    rw [← Nat.shiftLeft_add_eq_or_of_lt b1.isLt, Nat.shiftLeft_eq]
    omega
  apply BitVec.eq_of_toNat_eq
  rw [literalOfBytes, BitVec.toNat_append, hvalue, BitVec.toNat_ofNat, Nat.mod_eq_of_lt (by omega)]

/-- The address that the bytes at `pc` give is the base register plus the immediate (R159). -/
theorem addressAtPc_eq (s : State) :
    s.addressAtPc =
      s.readGpr (regOfArg (argField (s.mem.get s.pc.toNat))) +
        simm (literalOfBytes (s.mem.get (s.pc.toNat + 1)) (s.mem.get (s.pc.toNat + 2))) := by
  rw [regOfArg_argField, literalOfBytes_eq_ofNat]
  rfl

/-! ### The first cause -/

/-- Where a format S opcode byte stands at `pc` nothing can fault: neither a literal byte nor an
effective address is in play (R180). -/
theorem reportedFault_step_short {s : State} (hrunning : s.halt = false)
    (hpc : s.pc.toNat < s.mem.size) (hs : isLongOpcode (s.mem.get s.pc.toNat) = false) :
    reportedFault (step s) = s.firstFault := by
  have hlt : (s.mem.get s.pc.toNat).toNat < 0x80 := by
    simpa [hs] using isLongOpcode_iff (s.mem.get s.pc.toNat)
  have hA : ¬0xA0 ≤ (s.mem.get s.pc.toNat).toNat := by omega
  have hB : ¬0xB0 ≤ (s.mem.get s.pc.toNat).toNat := by omega
  rw [step_of_fetch_ok hrunning (fetchInstr_short hpc hs), reportedFault_exec_instrOf]
  simp [State.firstFault, hrunning, not_le.mpr hpc, not_le.mpr hlt, hA, hB]

/-- Where a format L opcode byte stands at `pc` the literal bytes come first, then the effective
address (R183). -/
theorem reportedFault_step_long {s : State} (hinv : s.Inv) (hrunning : s.halt = false)
    (hpc : s.pc.toNat < s.mem.size) (hl : isLongOpcode (s.mem.get s.pc.toNat) = true) :
    reportedFault (step s) = s.firstFault := by
  have hge : 0x80 ≤ (s.mem.get s.pc.toNat).toNat := (isLongOpcode_iff _).mp hl
  obtain ⟨hpc1, hpc2⟩ := toNat_pc_add hinv hpc
  by_cases h1 : s.mem.size ≤ s.pc.toNat + 1
  · rw [step_of_fetch_error hrunning (fetchInstr_of_size_le_add_one hpc hl (hpc1 ▸ h1))]
    simp [State.firstFault, hrunning, not_le.mpr hpc, hge, h1, reportedFault]
  have hin1 : (s.pc + 1).toNat < s.mem.size := hpc1 ▸ not_le.mp h1
  by_cases h2 : s.mem.size ≤ s.pc.toNat + 2
  · rw [step_of_fetch_error hrunning (fetchInstr_of_size_le_add_two hpc hl hin1 (hpc2 ▸ h2))]
    simp [State.firstFault, hrunning, not_le.mpr hpc, hge, h1, h2, reportedFault]
  have hin2 : (s.pc + 2).toNat < s.mem.size := hpc2 ▸ not_le.mp h2
  rw [step_of_fetch_ok hrunning (fetchInstr_long hpc hl hin1 hin2), reportedFault_exec_instrOf,
    hpc1, hpc2, ← addressAtPc_eq]
  simp [State.firstFault, hrunning, not_le.mpr hpc, h1, h2]

/-- The fault that a step reports is the first applicable cause, asked for in the order in which the
step works (R180, R183; the spec's decisions D1, D3 and D5, log 7). -/
theorem reportedFault_step {s : State} (hinv : s.Inv) :
    reportedFault (step s) = s.firstFault := by
  cases hhalt : s.halt with
  | true => simp [step_of_halt hhalt, State.firstFault, hhalt, reportedFault]
  | false =>
    by_cases hpc : s.pc.toNat < s.mem.size
    · cases hl : isLongOpcode (s.mem.get s.pc.toNat) with
      | false => exact reportedFault_step_short hhalt hpc hl
      | true => exact reportedFault_step_long hinv hhalt hpc hl
    · have hout := not_lt.mp hpc
      simp [step_of_pc_outside hhalt hout, State.firstFault, hhalt, hout, reportedFault]

/-! ### The record of hook calls -/

/-- An instruction that is no trap carries the hook along (R105, R186). -/
theorem nextState_hook_of_not_trap {i : Instr} (h : trapKindOf i = none) (s : State) :
    (nextState i s).hook = s.hook := by
  cases i <;> cases h
  case call c d => simp [nextState_call]
  all_goals rfl

end Sys2Proof.Machine
end

section
/-! SUPPORT. The statements about the one exception and the calls of the trap hook
(spec/60_exceptions.md R180 to R186). -/

namespace Sys2Proof.Machine

/-- Settles O16: the fault a step reports is the first cause. -/
theorem faultsAreTheFirstCause : Obligations.FaultsAreTheFirstCause := by
  intro s hinv k a
  rw [← reportedFault_step hinv, reportedFault_eq_some_iff]

/-- Settles O17: a step that reports no fault completes, since it is never refused. -/
theorem stepCompletesWithoutCause : Obligations.StepCompletesWithoutCause := by
  intro s hinv
  rw [← reportedFault_step hinv, reportedFault_step_eq_none_iff]

/-- Settles O45: a trap records its one call, and any other instruction carries the hook along. -/
theorem hookInvokedOncePerTrap : Obligations.HookInvokedOncePerTrap := by
  intro i s t hexec
  obtain rfl := exec_next hexec
  cases htrap : trapKindOf i with
  | none => rw [nextState_hook_of_not_trap htrap]
  | some k =>
    rw [nextState_of_trapKindOf htrap]
    rfl

end Sys2Proof.Machine
end

section
/-! SUPPORT. Facts the statements about the trap hook as a free input rest on (spec/60_exceptions.md
R186; log 3): whether the next step invokes the hook, which answers are left after it, and a run
with listed answers taken along a run under a hook function. -/

namespace Sys2Proof.Machine

open Sys2Proof.Config

/-! ### The step with a hook attached -/

/-- The trap that the next step takes, if any (R185, R186). -/
def State.trapAtPc (s : State) : Option TrapKind :=
  if s.halt then none
  else
    match fetchInstr s.mem s.pc with
    | .ok i => trapKindOf i
    | .error _ => none

theorem trapAtPc_of_fetch_ok {s : State} {i : Instr} (h : s.halt = false)
    (hf : fetchInstr s.mem s.pc = .ok i) : s.trapAtPc = trapKindOf i := by
  simp only [State.trapAtPc, h, hf, Bool.false_eq_true, if_false]

/-- A step that takes a trap runs a trap instruction of that kind. -/
theorem step_of_trapAtPc_eq_some {s : State} {k : TrapKind} (h : s.trapAtPc = some k) :
    step s = .next ((s.invokeHook k).setPc s.afterShort) := by
  rcases step_cases s with ⟨hhalt, -⟩ | ⟨hrunning, f, hf, -⟩ | ⟨hrunning, i, hf, hexec⟩
  · simp [State.trapAtPc, hhalt] at h
  · simp [State.trapAtPc, hrunning, hf] at h
  · rw [trapAtPc_of_fetch_ok hrunning hf] at h
    rw [hexec, exec_of_not_ld_st (by rintro _ _ rfl; cases h) (by rintro _ _ rfl; cases h),
      nextState_of_trapKindOf h]

/-- A step that takes no trap does the same whatever hook is attached (R105). -/
theorem step_withHook_of_no_trap {s : State} (h : s.trapAtPc = none) (q : List HookReply)
    (f : HookReply) : step (s.withHook q f) = outcomeWithHook q f (step s) := by
  rcases step_cases s with ⟨hhalt, hidle⟩ | ⟨hrunning, g, hf, hfault⟩ | ⟨hrunning, i, hf, hexec⟩
  · rw [hidle, step_of_halt (s := s.withHook q f) hhalt]
    rfl
  · rw [hfault, step_of_fetch_error (s := s.withHook q f) hrunning hf]
    rfl
  · rw [trapAtPc_of_fetch_ok hrunning hf] at h
    rw [hexec, step_of_fetch_ok (s := s.withHook q f) hrunning hf, hookMattersToTrapsOnly i s q f h]

/-- A step that takes no trap leaves the answers to come for the next one, and does not depend on
what the hook would answer. -/
theorem step_withHook_of_trapAtPc_eq_none {s : State} (h : s.trapAtPc = none) (q : List HookReply)
    (f r : HookReply) :
    step (s.withHook q f) = outcomeWithHook q f (step (s.withHook [] r)) := by
  rw [step_withHook_of_no_trap h q f, step_withHook_of_no_trap h [] r]
  cases step s <;> rfl

/-- A step that takes a trap uses up the next answer, and depends on no other. -/
theorem step_withHook_of_trapAtPc_eq_some {s : State} {k : TrapKind} (h : s.trapAtPc = some k)
    (q : List HookReply) (f : HookReply) :
    step (s.withHook q f) = outcomeWithHook q.tail f (step (s.withHook [] (q.headD f))) := by
  rw [step_of_trapAtPc_eq_some (s := s.withHook q f) h,
    step_of_trapAtPc_eq_some (s := s.withHook [] (q.headD f)) h]
  rfl

/-- How many times the next step invokes the hook, 0 or 1. -/
def State.callsAtPc (s : State) : Nat := s.trapAtPc.toList.length

/-- The next answer is the only one a step can depend on, and it is used up when the hook is
invoked. -/
theorem step_withHook_drop (s : State) (q : List HookReply) (f : HookReply) :
    step (s.withHook q f) =
      outcomeWithHook (q.drop s.callsAtPc) f (step (s.withHook [] (q.headD f))) := by
  cases h : s.trapAtPc with
  | none =>
    rw [step_withHook_of_trapAtPc_eq_none h q f (q.headD f), State.callsAtPc, h]
    rfl
  | some k =>
    rw [step_withHook_of_trapAtPc_eq_some h, State.callsAtPc, h, ← List.drop_one]
    rfl

/-- The record of a step's hook calls is as long as the calls it makes. -/
theorem length_calls_of_step {s t : State} (h : step s = .next t) :
    t.hook.calls.length = s.hook.calls.length + s.callsAtPc := by
  cases hk : s.trapAtPc with
  | some k =>
    cases (step_of_trapAtPc_eq_some hk).symm.trans h
    rw [State.callsAtPc, hk]
    rfl
  | none =>
    rw [State.callsAtPc, hk]
    rcases step_cases s with ⟨-, hidle⟩ | ⟨-, f, -, hfault⟩ | ⟨hrunning, i, hf, hexec⟩
    · cases hidle.symm.trans h
      rfl
    · cases hfault.symm.trans h
    · rw [trapAtPc_of_fetch_ok hrunning hf] at hk
      have hcalls := hookInvokedOncePerTrap i s t (hexec.symm.trans h)
      rw [hk] at hcalls
      rw [hcalls]
      rfl

/-! ### Runs -/

theorem runUnderHook_succ_of_next {H : HookFunction} {s t : State}
    (h : step (s.underHook H) = .next t) (n : Nat) :
    runUnderHook H (n + 1) s = runUnderHook H n t := by
  simp only [runUnderHook, h]

theorem runUnderHook_succ_of_fault {H : HookFunction} {s : State} {f : Fault}
    (h : step (s.underHook H) = .fault f) (n : Nat) : runUnderHook H (n + 1) s = .fault f := by
  simp only [runUnderHook, h]

/-- Two runs agree when their first steps do and the rest of the runs does. -/
theorem sameOutcome_run_succ {H : HookFunction} {n : Nat} {s : State} {q q' : List HookReply}
    {f : HookReply}
    (hstep : step (s.withHook q f) = outcomeWithHook q' f (step (s.underHook H)))
    (hrest : ∀ t, step (s.underHook H) = .next t →
      SameOutcome (Sys2Proof.core.run n (t.withHook q' f)) (runUnderHook H n t)) :
    SameOutcome (Sys2Proof.core.run (n + 1) (s.withHook q f)) (runUnderHook H (n + 1) s) := by
  rcases stepIsNeverRefused (s.underHook H) with ⟨t, hnext⟩ | ⟨k, a, hfault⟩
  · rw [hnext] at hstep
    rw [run_succ_of_next hstep, runUnderHook_succ_of_next hnext]
    exact hrest t hnext
  · rw [hfault] at hstep
    rw [run_succ_of_fault hstep, runUnderHook_succ_of_fault hfault]
    rfl

/-- The answers that a hook function gives in a state (R186). -/
def HookFunction.replyAt (H : HookFunction) (s : State) : HookReply :=
  { null := H .null s.view s.hook.calls
    trace := H .trace s.view s.hook.calls
    syscall := H .syscall s.view s.hook.calls
    extension := H .extension s.view s.hook.calls }

theorem underHook_eq_withHook (H : HookFunction) (s : State) :
    s.underHook H = s.withHook [] (HookFunction.replyAt H s) := rfl

/-- Whatever answers are to be left after a step, there are answers to start from with which it goes
as under the hook function. -/
theorem exists_replies_before_step (H : HookFunction) (s : State) (rest : List HookReply) :
    ∃ q, ∀ f, step (s.withHook q f) = outcomeWithHook rest f (step (s.underHook H)) := by
  rw [underHook_eq_withHook]
  cases h : s.trapAtPc with
  | none => exact ⟨rest, fun f => step_withHook_of_trapAtPc_eq_none h rest f _⟩
  | some k =>
    exact ⟨HookFunction.replyAt H s :: rest, fun f => step_withHook_of_trapAtPc_eq_some h _ f⟩

/-- The hook function that gives the listed answers in turn and then the fallback, counting the
calls made after the first `base`. -/
def hookOfReplies (replies : List HookReply) (fallback : HookReply) (base : Nat) : HookFunction :=
  fun kind _ calls => replyFor (replies.getD (calls.length - base) fallback) kind

/-- The answers under `hookOfReplies` are the next of the answers still to come. -/
theorem underHook_hookOfReplies (q : List HookReply) (f : HookReply) (base : Nat) (s : State) :
    s.underHook (hookOfReplies q f base) =
      s.withHook [] ((q.drop (s.hook.calls.length - base)).headD f) := by
  rw [List.headD_eq_head?_getD, List.head?_drop, ← List.getD_eq_getElem?_getD]
  rfl

/-- A run with the answers still to come goes as the run under the function that counts calls. -/
theorem sameOutcome_hookOfReplies (q : List HookReply) (f : HookReply) (base n : Nat) (s : State)
    (hbase : base ≤ s.hook.calls.length) :
    SameOutcome (Sys2Proof.core.run n (s.withHook (q.drop (s.hook.calls.length - base)) f))
      (runUnderHook (hookOfReplies q f base) n s) := by
  induction n generalizing s with
  | zero => rfl
  | succ n ih =>
    have hstep := step_withHook_drop s (q.drop (s.hook.calls.length - base)) f
    rw [← underHook_hookOfReplies] at hstep
    refine sameOutcome_run_succ hstep fun t hnext => ?_
    have hcalls : t.hook.calls.length = s.hook.calls.length + s.callsAtPc :=
      length_calls_of_step (s := s.underHook (hookOfReplies q f base)) hnext
    have hleft : s.hook.calls.length - base + s.callsAtPc = t.hook.calls.length - base := by omega
    rw [List.drop_drop, hleft]
    exact ih t (by omega)

end Sys2Proof.Machine
end

section
/-! SUPPORT. The statements about the trap hook as a free input (spec/60_exceptions.md R186;
log 3). -/

namespace Sys2Proof.Machine

/-- Settles O48, by induction on the number of steps: the answers are found from the last step
backwards, each step putting its own before those of the rest of the run. -/
theorem anyHookFunctionIsAListOfReplies : Obligations.AnyHookFunctionIsAListOfReplies := by
  intro H n
  induction n with
  | zero => exact fun s => ⟨[], fun f => rfl⟩
  | succ n ih =>
    intro s
    obtain ⟨rest, hrest⟩ : ∃ rest, ∀ f t, step (s.underHook H) = .next t →
        SameOutcome (Sys2Proof.core.run n (t.withHook rest f)) (runUnderHook H n t) := by
      rcases stepIsNeverRefused (s.underHook H) with ⟨t, hnext⟩ | ⟨k, a, hfault⟩
      · obtain ⟨rest, hrest⟩ := ih t
        refine ⟨rest, fun f t' hnext' => ?_⟩
        cases hnext.symm.trans hnext'
        exact hrest f
      · exact ⟨[], fun f t hnext => by cases hfault.symm.trans hnext⟩
    obtain ⟨q, hq⟩ := exists_replies_before_step H s rest
    exact ⟨q, fun f => sameOutcome_run_succ (hq f) (hrest f)⟩

/-- Settles O49: the function counts the calls made since the start of the run and gives the answer
at that place of the list. -/
theorem anyListOfRepliesIsAHookFunction : Obligations.AnyListOfRepliesIsAHookFunction := by
  intro q f s
  refine ⟨hookOfReplies q f s.hook.calls.length, fun n => ?_⟩
  simpa using sameOutcome_hookOfReplies q f s.hook.calls.length n s le_rfl

end Sys2Proof.Machine
end

section
/-! SUPPORT. Facts the statements about reset rest on: the bytes of the image in the memory that
reset constructs, and the rounding of a requested size (spec/70_reset_and_hazards.md R210, R211). -/

namespace Sys2Proof.Machine

open Sys2Proof.Config

/-- The memory that reset constructs holds the image, cut at the capacity, and zeros elsewhere
(R210). -/
theorem State.get_of_init_ok {memsize : Nat} {image : List Byte} {s : State}
    (h : State.init memsize image = .ok s) (a : Nat) :
    s.mem.get a = (image.take memsize).getD a 0 := by
  rcases State.init_cases memsize image with ⟨hsize, hok⟩ | ⟨-, herr⟩
  · cases hok.symm.trans h
    have hwf : (Memory.zeroed memsize).wf = true := Memory.wf_iff.mpr ⟨hsize, rfl⟩
    have hfit : 0 + (image.take memsize).length ≤ (Memory.zeroed memsize).size := by
      simp [Memory.zeroed]
    rw [Memory.get_setBytes hfit hwf]
    split_ifs with hin
    · rfl
    · rw [List.getD_eq_default _ _ (by omega)]
      rfl
  · cases herr.symm.trans h

/-- A machine that reset constructs is running with every register zero (R210; the spec's decision
D8, log 6). -/
theorem State.registers_of_init_ok {memsize : Nat} {image : List Byte} {s : State}
    (h : State.init memsize image = .ok s) :
    s.pc = 0 ∧ s.acc = 0 ∧ s.lr = 0 ∧ s.sr = 0 ∧ (∀ r, s.readGpr r = 0) ∧ s.halt = false := by
  obtain ⟨hpc, hacc, hlr, hsr, hgpr, hhalt, -⟩ := resetClearsEveryRegister
  rcases State.init_cases memsize image with ⟨-, hok⟩ | ⟨-, herr⟩
  · cases hok.symm.trans h
    exact ⟨hpc, hacc, hlr, hsr, hgpr, hhalt⟩
  · cases herr.symm.trans h

theorem State.init_of_sizeWf {memsize : Nat} (h : sizeWf memsize = true) (image : List Byte) :
    ∃ s, State.init memsize image = .ok s := by
  rcases State.init_cases memsize image with ⟨-, hok⟩ | ⟨hnot, -⟩
  · exact ⟨_, hok⟩
  · cases hnot.symm.trans h

theorem State.init_of_not_sizeWf {memsize : Nat} (h : ¬sizeWf memsize = true)
    (image : List Byte) : State.init memsize image = .error (.badMemsize memsize) := by
  rcases State.init_cases memsize image with ⟨hwf, -⟩ | ⟨-, herr⟩
  · exact absurd hwf h
  · exact herr

/-- A requested size is rounded up to the next multiple of 8 (R211). -/
theorem memsizeOfRequest_bounds (requested : Nat) :
    memsizeOfRequest requested % 8 = 0 ∧ requested ≤ memsizeOfRequest requested ∧
      memsizeOfRequest requested < requested + 8 := by
  simp only [memsizeOfRequest, wordBytes]
  omega

end Sys2Proof.Machine
end

section
/-! SUPPORT. The statements about reset and the requested size (spec/70_reset_and_hazards.md R210,
R211). -/

namespace Sys2Proof.Machine

open Sys2Proof.Config

/-- Settles O3: an admitted capacity constructs a machine, and below the capacity the cut image
holds the bytes of the image (the spec's decision D8, log 6). -/
theorem resetLoadsImage : Obligations.ResetLoadsImage := by
  intro memsize image hsize
  obtain ⟨s, hinit⟩ := State.init_of_sizeWf hsize image
  obtain ⟨-, hmem, hwf⟩ := State.init_ok hinit
  refine ⟨s, hinit, hwf, hmem, fun a ha => ?_, State.registers_of_init_ok hinit⟩
  rw [State.get_of_init_ok hinit]
  simp [ha]

/-- Settles O4: the capacity made of a request is admitted exactly when the request is, and reset
refuses every other (the spec's decision D9, log 14). -/
theorem requestedSizeRoundsUp : Obligations.RequestedSizeRoundsUp := by
  refine ⟨fun requested file hpos hmax => ?made, rfl, fun memsize image hout => ?badMemsize,
    fun requested file hout => ?badRequest⟩
  case made =>
    obtain ⟨hmod, hle, hlt⟩ := memsizeOfRequest_bounds requested
    obtain ⟨s, hinit⟩ :=
      State.init_of_sizeWf ((sizeWf_memsizeOfRequest requested).mpr ⟨hpos, hmax⟩) file
    obtain ⟨-, hmem, hwf⟩ := State.init_ok hinit
    refine ⟨hpos.trans hle, hmod, hle, hlt, s, hinit, hwf, hmem, fun a ha => ?_⟩
    rw [State.get_of_init_ok hinit]
    exact List.getD_eq_default _ _ ((List.length_take_le' _ _).trans ha)
  case badMemsize =>
    refine State.init_of_not_sizeWf (fun hsize => hout ?_) image
    obtain ⟨hpos, hmod, hmax⟩ := sizeWf_iff.mp hsize
    simp only [wordBytes, maxMemsize] at hmod hmax
    omega
  case badRequest =>
    refine State.init_of_not_sizeWf (fun hsize => ?_) file
    obtain ⟨hpos, hmax⟩ := (sizeWf_memsizeOfRequest requested).mp hsize
    omega

end Sys2Proof.Machine
end
